-- ==== Sys2Proof/Word.lean ====
section
/-! DEFINITION. The word and byte of the CORE, and the number of a general-purpose register. -/

namespace Sys2Proof

/-- A word: 16 bits, bit 15 most significant (00_scope.md R5). Registers, cells, addresses and
instruction words are all words (R3). -/
abbrev Word := BitVec 16

/-- A byte of the host channels, `0..255` (10_state.md R22). -/
abbrev Byte := BitVec 8

/-- The number of a general-purpose register, `0..7` (10_state.md R10). -/
abbrev Reg := Fin 8

end Sys2Proof
end

