-- ==== Sys2Proof/Syntax.lean ====
section
/-! DEFINITION. The instructions, one constructor for each of the 27 rows of spec/opcode_table.json:
the nineteen rows of 30_encoding.md R57 and the eight alias rows of R63 (log 9). -/

namespace Sys2Proof

/-- An instruction with its operand fields (30_encoding.md R51). The bits that no field covers are
ignored by the hardware (R58) and are not part of the instruction (log 6). -/
inductive Instr where
  /-- BR (R100): `nzp = ir[11:9]`, PCoffset9 -/
  | br (nzp : BitVec 3) (off : BitVec 9)
  /-- ADD, register mode (R80): DR, SR1, SR2 -/
  | addReg (dr sr1 sr2 : Reg)
  /-- ADD, immediate mode (R81): DR, SR1, imm5 -/
  | addImm (dr sr1 : Reg) (imm : BitVec 5)
  /-- LD (R90): DR, PCoffset9 -/
  | ld (dr : Reg) (off : BitVec 9)
  /-- ST (R94): SR, PCoffset9 -/
  | st (sr : Reg) (off : BitVec 9)
  /-- JSR (R103): PCoffset11 -/
  | jsr (off : BitVec 11)
  /-- JSRR (R104): BaseR -/
  | jsrr (base : Reg)
  /-- AND, register mode (R82): DR, SR1, SR2 -/
  | andReg (dr sr1 sr2 : Reg)
  /-- AND, immediate mode (R83): DR, SR1, imm5 -/
  | andImm (dr sr1 : Reg) (imm : BitVec 5)
  /-- LDR (R92): DR, BaseR, offset6 -/
  | ldr (dr base : Reg) (off : BitVec 6)
  /-- STR (R96): SR, BaseR, offset6 -/
  | str (sr base : Reg) (off : BitVec 6)
  /-- RTI (R130), fatal -/
  | rti
  /-- NOT (R84): DR, SR -/
  | notReg (dr sr : Reg)
  /-- LDI (R91): DR, PCoffset9 -/
  | ldi (dr : Reg) (off : BitVec 9)
  /-- STI (R95): SR, PCoffset9 -/
  | sti (sr : Reg) (off : BitVec 9)
  /-- JMP (R101): BaseR -/
  | jmp (base : Reg)
  /-- RES (R131), fatal -/
  | res
  /-- LEA (R93): DR, PCoffset9 -/
  | lea (dr : Reg) (off : BitVec 9)
  /-- TRAP (R110): trapvect8 -/
  | trap (vect : BitVec 8)
  /-- RET (R102), the alias of JMP with BaseR = 7 -/
  | ret
  /-- GETC (R113), the alias of TRAP 0x20 -/
  | getc
  /-- OUT (R114), the alias of TRAP 0x21 -/
  | out
  /-- PUTS (R115), the alias of TRAP 0x22 -/
  | puts
  /-- IN (R116), the alias of TRAP 0x23 -/
  | inChar
  /-- PUTSP (R117), the alias of TRAP 0x24 -/
  | putsp
  /-- HALT (R118), the alias of TRAP 0x25 -/
  | halt
  /-- NOP (R63), the alias of BR with `nzp = 000`, any PCoffset9 -/
  | nop (off : BitVec 9)
  deriving DecidableEq, Repr

/-- The instruction of R57 that an alias is another name of (R63); every other instruction is its
own. -/
def Instr.core : Instr → Instr
  | .ret => .jmp 7
  | .getc => .trap 0x20#8
  | .out => .trap 0x21#8
  | .puts => .trap 0x22#8
  | .inChar => .trap 0x23#8
  | .putsp => .trap 0x24#8
  | .halt => .trap 0x25#8
  | .nop off => .br 0#3 off
  | .br nzp off => .br nzp off
  | .addReg dr sr1 sr2 => .addReg dr sr1 sr2
  | .addImm dr sr1 imm => .addImm dr sr1 imm
  | .ld dr off => .ld dr off
  | .st sr off => .st sr off
  | .jsr off => .jsr off
  | .jsrr base => .jsrr base
  | .andReg dr sr1 sr2 => .andReg dr sr1 sr2
  | .andImm dr sr1 imm => .andImm dr sr1 imm
  | .ldr dr base off => .ldr dr base off
  | .str sr base off => .str sr base off
  | .rti => .rti
  | .notReg dr sr => .notReg dr sr
  | .ldi dr off => .ldi dr off
  | .sti sr off => .sti sr off
  | .jmp base => .jmp base
  | .res => .res
  | .lea dr off => .lea dr off
  | .trap vect => .trap vect

end Sys2Proof
end

