-- ==== Sys2Proof/WellFormed.lean ====
section
/-! DEFINITION. Which instructions are the decoder's own reading of a word. The field types already
bound every operand; what is left to check is that a word which has an alias row is written as that
alias (log 9). Execution does not ask for this check. -/

namespace Sys2Proof

/-- The six vectors that have a service, hence an alias row (44_trap.md R111). -/
def isServiceVector (vect : BitVec 8) : Bool :=
  decide (0x20#8 ≤ vect) && decide (vect ≤ 0x25#8)

/-- Three checks: a BR with `nzp = 000` is written NOP, a JMP through `R7` is written RET, and a TRAP
with a service's vector is written as the service (30_encoding.md R63). -/
def Instr.wellFormed : Instr → Bool
  | .br nzp _ => nzp != 0#3
  | .jmp base => base != 7
  | .trap vect => !isServiceVector vect
  | .addReg _ _ _ => true
  | .addImm _ _ _ => true
  | .ld _ _ => true
  | .st _ _ => true
  | .jsr _ => true
  | .jsrr _ => true
  | .andReg _ _ _ => true
  | .andImm _ _ _ => true
  | .ldr _ _ _ => true
  | .str _ _ _ => true
  | .rti => true
  | .notReg _ _ => true
  | .ldi _ _ => true
  | .sti _ _ => true
  | .res => true
  | .lea _ _ => true
  | .ret => true
  | .getc => true
  | .out => true
  | .puts => true
  | .inChar => true
  | .putsp => true
  | .halt => true
  | .nop _ => true

end Sys2Proof
end

