-- ==== Sys2Proof/Decode.lean ====
section
/-! DEFINITION. The decoder, total on every 16-bit word (30_encoding.md R60): sixteen opcode arms and
no default arm, since none exists (R132). No word is rejected, so there is no reason to name. Then the
encoder, from the same format table (R52) with the canonical values of the ignored bits (R64). -/

namespace Sys2Proof

/-- `ir[11:9]` as a register: DR, and the SR a store stores (R51). -/
def regAt9 (w : Word) : Reg := (w.extractLsb' 9 3).toFin

/-- `ir[8:6]` as a register: SR1, NOT's SR, BaseR (R51). -/
def regAt6 (w : Word) : Reg := (w.extractLsb' 6 3).toFin

/-- `ir[2:0]` as a register: SR2 (R51). -/
def regAt0 (w : Word) : Reg := (w.extractLsb' 0 3).toFin

/-- `ir[11:9]` as the condition mask of BR (R51). -/
def nzpField (w : Word) : BitVec 3 := w.extractLsb' 9 3

/-- `ir[4:0]` (R51). -/
def imm5Field (w : Word) : BitVec 5 := w.extractLsb' 0 5

/-- `ir[5:0]` (R51). -/
def offset6Field (w : Word) : BitVec 6 := w.extractLsb' 0 6

/-- `ir[8:0]` (R51). -/
def pcOffset9Field (w : Word) : BitVec 9 := w.extractLsb' 0 9

/-- `ir[10:0]` (R51). -/
def pcOffset11Field (w : Word) : BitVec 11 := w.extractLsb' 0 11

/-- `ir[7:0]` (R56). -/
def trapVectField (w : Word) : BitVec 8 := w.extractLsb' 0 8

/-- Opcode `0000`: BR (R57), named NOP when `nzp = 000` (R63). -/
def decodeBr (w : Word) : Instr :=
  if nzpField w = 0#3 then .nop (pcOffset9Field w) else .br (nzpField w) (pcOffset9Field w)

/-- Opcode `0001`: ADD, its form chosen by `ir[5]` (R54). -/
def decodeAdd (w : Word) : Instr :=
  if w.getLsbD 5 then .addImm (regAt9 w) (regAt6 w) (imm5Field w)
  else .addReg (regAt9 w) (regAt6 w) (regAt0 w)

/-- Opcode `0100`: JSR or JSRR, chosen by `ir[11]` (R54). -/
def decodeJsr (w : Word) : Instr :=
  if w.getLsbD 11 then .jsr (pcOffset11Field w) else .jsrr (regAt6 w)

/-- Opcode `0101`: AND, its form chosen by `ir[5]` (R54). -/
def decodeAnd (w : Word) : Instr :=
  if w.getLsbD 5 then .andImm (regAt9 w) (regAt6 w) (imm5Field w)
  else .andReg (regAt9 w) (regAt6 w) (regAt0 w)

/-- Opcode `1100`: JMP, named RET when BaseR = 7 (R63). -/
def decodeJmp (w : Word) : Instr :=
  if regAt6 w = 7 then .ret else .jmp (regAt6 w)

/-- The instruction of a trap vector: the service's name where there is one (R63, R111). -/
def trapInstr (vect : BitVec 8) : Instr :=
  if vect = 0x20#8 then .getc
  else if vect = 0x21#8 then .out
  else if vect = 0x22#8 then .puts
  else if vect = 0x23#8 then .inChar
  else if vect = 0x24#8 then .putsp
  else if vect = 0x25#8 then .halt
  else .trap vect

/-- The decoder: dispatch on `ir[15:12]`, written most significant bit first as in the opcode map
(R57). It looks at no state (R61). -/
def decode (w : Word) : Instr :=
  match w.getLsbD 15, w.getLsbD 14, w.getLsbD 13, w.getLsbD 12 with
  | false, false, false, false => decodeBr w
  | false, false, false, true => decodeAdd w
  | false, false, true, false => .ld (regAt9 w) (pcOffset9Field w)
  | false, false, true, true => .st (regAt9 w) (pcOffset9Field w)
  | false, true, false, false => decodeJsr w
  | false, true, false, true => decodeAnd w
  | false, true, true, false => .ldr (regAt9 w) (regAt6 w) (offset6Field w)
  | false, true, true, true => .str (regAt9 w) (regAt6 w) (offset6Field w)
  | true, false, false, false => .rti
  | true, false, false, true => .notReg (regAt9 w) (regAt6 w)
  | true, false, true, false => .ldi (regAt9 w) (pcOffset9Field w)
  | true, false, true, true => .sti (regAt9 w) (pcOffset9Field w)
  | true, true, false, false => decodeJmp w
  | true, true, false, true => .res
  | true, true, true, false => .lea (regAt9 w) (pcOffset9Field w)
  | true, true, true, true => trapInstr (trapVectField w)

/-- A register number as its 3-bit selector (R53). -/
def selector (r : Reg) : BitVec 3 := BitVec.ofFin (w := 3) r

/-- A field with its bit 0 at bit `lo` of the word, all else zero (R51). -/
def bitsAt {n : Nat} (lo : Nat) (v : BitVec n) : Word := v.setWidth 16 <<< lo

/-- The word of an instruction: each field at the lowest bit of its place in the field table (R51), most
significant first as in the formats (R52), ignored bits at their canonical values (R64), where a zero
needs no writing. -/
def encode : Instr → Word
  | .br nzp off => bitsAt 12 0b0000#4 ||| bitsAt 9 nzp ||| bitsAt 0 off
  | .addReg dr sr1 sr2 => bitsAt 12 0b0001#4 ||| bitsAt 9 (selector dr) ||| bitsAt 6 (selector sr1) ||| bitsAt 5 0b0#1 ||| bitsAt 0 (selector sr2)
  | .addImm dr sr1 imm => bitsAt 12 0b0001#4 ||| bitsAt 9 (selector dr) ||| bitsAt 6 (selector sr1) ||| bitsAt 5 0b1#1 ||| bitsAt 0 imm
  | .ld dr off => bitsAt 12 0b0010#4 ||| bitsAt 9 (selector dr) ||| bitsAt 0 off
  | .st sr off => bitsAt 12 0b0011#4 ||| bitsAt 9 (selector sr) ||| bitsAt 0 off
  | .jsr off => bitsAt 12 0b0100#4 ||| bitsAt 11 0b1#1 ||| bitsAt 0 off
  | .jsrr base => bitsAt 12 0b0100#4 ||| bitsAt 11 0b0#1 ||| bitsAt 6 (selector base)
  | .andReg dr sr1 sr2 => bitsAt 12 0b0101#4 ||| bitsAt 9 (selector dr) ||| bitsAt 6 (selector sr1) ||| bitsAt 5 0b0#1 ||| bitsAt 0 (selector sr2)
  | .andImm dr sr1 imm => bitsAt 12 0b0101#4 ||| bitsAt 9 (selector dr) ||| bitsAt 6 (selector sr1) ||| bitsAt 5 0b1#1 ||| bitsAt 0 imm
  | .ldr dr base off => bitsAt 12 0b0110#4 ||| bitsAt 9 (selector dr) ||| bitsAt 6 (selector base) ||| bitsAt 0 off
  | .str sr base off => bitsAt 12 0b0111#4 ||| bitsAt 9 (selector sr) ||| bitsAt 6 (selector base) ||| bitsAt 0 off
  | .rti => bitsAt 12 0b1000#4
  | .notReg dr sr => bitsAt 12 0b1001#4 ||| bitsAt 9 (selector dr) ||| bitsAt 6 (selector sr) ||| bitsAt 0 0b111111#6
  | .ldi dr off => bitsAt 12 0b1010#4 ||| bitsAt 9 (selector dr) ||| bitsAt 0 off
  | .sti sr off => bitsAt 12 0b1011#4 ||| bitsAt 9 (selector sr) ||| bitsAt 0 off
  | .jmp base => bitsAt 12 0b1100#4 ||| bitsAt 6 (selector base)
  | .res => bitsAt 12 0b1101#4
  | .lea dr off => bitsAt 12 0b1110#4 ||| bitsAt 9 (selector dr) ||| bitsAt 0 off
  | .trap vect => bitsAt 12 0b1111#4 ||| bitsAt 0 vect
  | .ret => bitsAt 12 0b1100#4 ||| bitsAt 6 0b111#3
  | .getc => bitsAt 12 0b1111#4 ||| bitsAt 0 0x20#8
  | .out => bitsAt 12 0b1111#4 ||| bitsAt 0 0x21#8
  | .puts => bitsAt 12 0b1111#4 ||| bitsAt 0 0x22#8
  | .inChar => bitsAt 12 0b1111#4 ||| bitsAt 0 0x23#8
  | .putsp => bitsAt 12 0b1111#4 ||| bitsAt 0 0x24#8
  | .halt => bitsAt 12 0b1111#4 ||| bitsAt 0 0x25#8
  | .nop off => bitsAt 12 0b0000#4 ||| bitsAt 9 0b000#3 ||| bitsAt 0 off

/-- The bits of an instruction's word that its row fixes: the table's mask (R57; for an alias the
mask of its own row of spec/opcode_table.json). -/
def Instr.rowMask : Instr → Word
  | .addReg _ _ _ => 0xF020#16
  | .addImm _ _ _ => 0xF020#16
  | .andReg _ _ _ => 0xF020#16
  | .andImm _ _ _ => 0xF020#16
  | .jsr _ => 0xF800#16
  | .jsrr _ => 0xF800#16
  | .ret => 0xF1C0#16
  | .getc => 0xF0FF#16
  | .out => 0xF0FF#16
  | .puts => 0xF0FF#16
  | .inChar => 0xF0FF#16
  | .putsp => 0xF0FF#16
  | .halt => 0xF0FF#16
  | .nop _ => 0xFE00#16
  | .br _ _ => 0xF000#16
  | .ld _ _ => 0xF000#16
  | .st _ _ => 0xF000#16
  | .ldr _ _ _ => 0xF000#16
  | .str _ _ _ => 0xF000#16
  | .rti => 0xF000#16
  | .notReg _ _ => 0xF000#16
  | .ldi _ _ => 0xF000#16
  | .sti _ _ => 0xF000#16
  | .jmp _ => 0xF000#16
  | .res => 0xF000#16
  | .lea _ _ => 0xF000#16
  | .trap _ => 0xF000#16

/-- The value of the fixed bits: the table's match (R57). -/
def Instr.rowMatch : Instr → Word
  | .br _ _ => 0x0000#16
  | .addReg _ _ _ => 0x1000#16
  | .addImm _ _ _ => 0x1020#16
  | .ld _ _ => 0x2000#16
  | .st _ _ => 0x3000#16
  | .jsr _ => 0x4800#16
  | .jsrr _ => 0x4000#16
  | .andReg _ _ _ => 0x5000#16
  | .andImm _ _ _ => 0x5020#16
  | .ldr _ _ _ => 0x6000#16
  | .str _ _ _ => 0x7000#16
  | .rti => 0x8000#16
  | .notReg _ _ => 0x9000#16
  | .ldi _ _ => 0xA000#16
  | .sti _ _ => 0xB000#16
  | .jmp _ => 0xC000#16
  | .res => 0xD000#16
  | .lea _ _ => 0xE000#16
  | .trap _ => 0xF000#16
  | .ret => 0xC1C0#16
  | .getc => 0xF020#16
  | .out => 0xF021#16
  | .puts => 0xF022#16
  | .inChar => 0xF023#16
  | .putsp => 0xF024#16
  | .halt => 0xF025#16
  | .nop _ => 0x0000#16

/-- The bits of a word that no field and no fixed bit of its row covers (R58). -/
def Instr.ignoredBits : Instr → Word
  | .addReg _ _ _ => 0x0018#16
  | .andReg _ _ _ => 0x0018#16
  | .notReg _ _ => 0x003F#16
  | .jmp _ => 0x0E3F#16
  | .ret => 0x0E3F#16
  | .jsrr _ => 0x063F#16
  | .trap _ => 0x0F00#16
  | .getc => 0x0F00#16
  | .out => 0x0F00#16
  | .puts => 0x0F00#16
  | .inChar => 0x0F00#16
  | .putsp => 0x0F00#16
  | .halt => 0x0F00#16
  | .rti => 0x0FFF#16
  | .res => 0x0FFF#16
  | .br _ _ => 0x0000#16
  | .addImm _ _ _ => 0x0000#16
  | .ld _ _ => 0x0000#16
  | .st _ _ => 0x0000#16
  | .jsr _ => 0x0000#16
  | .andImm _ _ _ => 0x0000#16
  | .ldr _ _ _ => 0x0000#16
  | .str _ _ _ => 0x0000#16
  | .ldi _ _ => 0x0000#16
  | .sti _ _ => 0x0000#16
  | .lea _ _ => 0x0000#16
  | .nop _ => 0x0000#16

/-- The instruction word that `nbits` bits of value `w` make, the bits above them zero (log 21). -/
def tableWord (nbits w : Nat) : Word := BitVec.ofNat 16 (w % 2 ^ nbits)

/-- The instruction the decoder reads from an opcode-table word. An instruction is one 16-bit word
(R50), so more bits than sixteen are no instruction (log 21). -/
def decodeTableWord (nbits w : Nat) : Option Instr :=
  if nbits ≤ 16 then some (decode (tableWord nbits w)) else none

end Sys2Proof
end

