-- ==== Sys2Proof/Config.lean ====
section
/-! DEFINITION. The numbers the spec fixes for every CORE (00_scope.md R3), and the one host
parameter with named values (`EOF_POLICY`, R4). `IMG`, the other parameter with a value, is the
argument of `State.resetWith`; the host's input behaviour is a list of events
(Machine/Environment.lean). No instruction has an open value (93_implementation_defined.md section 1);
the one value left free is the loader's, for the odd byte of an image file. -/

namespace Sys2Proof.Config

/-- `PC_RESET` (R3, R161). -/
def pcReset : Word := 0x3000#16

/-- `KBSR_ADDR` (R3, R19). -/
def kbsrAddr : Word := 0xFE00#16

/-- `KBDR_ADDR` (R3, R20). -/
def kbdrAddr : Word := 0xFE02#16

/-- The flag value NEG (10_state.md R14). -/
def neg : Word := 0x0004#16

/-- The flag value ZRO (10_state.md R14). -/
def zro : Word := 0x0002#16

/-- The flag value POS (10_state.md R14). -/
def pos : Word := 0x0001#16

/-- `EOF_POLICY`: what the host does when its input ends (R4; decision D8). -/
inductive EofPolicy where
  /-- the host appends nothing more -/
  | hang
  /-- the host appends `0x00` bytes without limit -/
  | zero
  deriving DecidableEq, Repr

/-- FREE VALUE: what the cell at `addr`, holding `old`, holds after an image file has ended with the odd
byte `b` where that cell's word would stand. The spec does not say whether the byte is dropped (then it
is `old`) or loaded as a half word (91_not_in_source.md N23; log 20). -/
opaque oddByteCell (addr : Word) (b : Byte) (old : Word) : Word

end Sys2Proof.Config
end

