-- ==== Sys2Proof/Machine/Memory.lean ====
section
/-! DEFINITION. The memory of the CORE: 65 536 cells of 16 bits (10_state.md R18, R26), held as a
list of (address, word) pairs in one canonical form. The smallest addressable unit is the 16-bit cell
and the CORE has no byte order (20_memory.md R36, R37), so an entry holds a whole cell, not a byte
(log 1). -/

namespace Sys2Proof.Machine

/-- A listed cell: its address as a number, and its content. -/
abbrev Cell := Nat × Word

/-- The listed cells. Every address of `0x0000..0xFFFF` exists; one that is not listed reads as
`Memory.unlisted`. -/
abbrev Memory := List Cell

/-- What a cell reads as that no image covers and nothing has written: "unloaded cells are zero"
(R18, R25). -/
def Memory.unlisted : Word := 0x0000#16

/-- The content `mem[a]` of cell `a`, with no side effect (00_scope.md R6). -/
def Memory.read : Memory → Word → Word
  | [], _ => Memory.unlisted
  | (b, v) :: rest, a => if b = a.toNat then v else Memory.read rest a

/-- The memory with address `k` no longer listed. -/
def Memory.unlist (k : Nat) : Memory → Memory
  | [] => []
  | (b, v) :: rest => if b = k then Memory.unlist k rest else (b, v) :: Memory.unlist k rest

/-- The memory with the entry `(k, v)` put before the first higher address. -/
def Memory.enlist (k : Nat) (v : Word) : Memory → Memory
  | [] => [(k, v)]
  | (b, w) :: rest => if k < b then (k, v) :: (b, w) :: rest else (b, w) :: Memory.enlist k v rest

/-- `mem[a] <- v`. Writing what an unlisted cell reads as takes the entry away, so that equal memories
are equal lists. -/
def Memory.write (m : Memory) (a : Word) (v : Word) : Memory :=
  if v = Memory.unlisted then Memory.unlist a.toNat m
  else Memory.enlist a.toNat v (Memory.unlist a.toNat m)

/-- The canonical form: addresses strictly rising and inside the address space, no entry equal to what
an unlisted cell reads as. -/
abbrev Memory.wf (m : Memory) : Prop :=
  m.Pairwise (fun c d => c.1 < d.1) ∧ ∀ c ∈ m, c.1 < 65536 ∧ c.2 ≠ Memory.unlisted

end Sys2Proof.Machine
end

