-- ==== Sys2Proof/Machine/State.lean ====
section
/-! DEFINITION. The architectural state of the CORE (10_state.md section 1), the reasons a step can
stop, and the state after reset. -/

namespace Sys2Proof.Machine

/-- The cause an abort records (60_exceptions.md R141). -/
inductive FatalCause where
  | rti
  | res
  deriving DecidableEq, Repr

/-- The service inside which a CORE is blocked (44_trap.md R119). -/
inductive WaitPoint where
  | getc
  | inChar
  deriving DecidableEq, Repr

/-- The three conditions of a CORE (60_exceptions.md R154). -/
inductive Condition where
  /-- `running = 1`, executing instructions -/
  | running
  /-- `running = 1`, at the wait point of GETC or IN -/
  | blocked (w : WaitPoint)
  /-- `running = 0`, after HALT or an abort -/
  | stopped
  deriving DecidableEq, Repr

/-- All the state the spec gives the machine. KBSR and KBDR are cells of `mem` (R19, R20). -/
structure State where
  /-- `R[0]..R[7]` (R10) -/
  regs : Vector Word 8
  /-- the program counter (R12) -/
  pc : Word
  /-- the condition register COND, one of NEG, ZRO, POS (R14) -/
  cond : Word
  /-- the running flag (R16) -/
  running : Bool
  /-- why the CORE stopped when not by HALT; `none` is the spec's own value None (R17) -/
  fault : Option FatalCause
  /-- the 65 536 memory cells (R18) -/
  mem : Memory
  /-- the host input channel `In`, oldest byte first (R22) -/
  input : List Byte
  /-- the host output channel `Out`, oldest byte first (R23) -/
  output : List Byte
  /-- the wait point the CORE is blocked at, if any (R24; 44_trap.md R119; log 4) -/
  waiting : Option WaitPoint
  deriving DecidableEq, Repr

/-- Reasons the machine stops. The spec's own abort is NOT one of them: it is a next state in which
`State.fault` is set (60_exceptions.md R140; log 13). -/
inductive Fault where
  /-- Raised by PUTS and PUTSP if their string has no terminator: the hang of 44_trap.md R120, named.
  Safe: the model stops where the hardware never reaches its next instruction. No state leads to it,
  because a poll that finds `In` empty ends the string (log 14). -/
  | stringNeverEnds
  deriving DecidableEq, Repr

/-- Reasons an instruction has no meaning. -/
inductive Refusal where
  /-- An instruction that Dispatch rejects by name. Safe. No arm raises it: every instruction has its
  meaning. -/
  | notModelled (mnemonic : String)
  deriving DecidableEq, Repr

/-- The state after a reset with initial memory `img` (the parameter `IMG`, 00_scope.md R4) and the
host channels as the host left them (70_reset_and_hazards.md R160, 10_state.md R25). -/
def State.resetWith (img : Memory) (input output : List Byte) : State where
  regs := Vector.replicate 8 0x0000#16
  pc := Config.pcReset
  cond := Config.zro
  running := true
  fault := none
  mem := img
  input := input
  output := output
  waiting := none

/-- The machine right after reset: no image loaded (all cells zero, R25; log 2), host channels empty
(log 3). -/
def State.reset : State := State.resetWith [] [] []

end Sys2Proof.Machine
end

