-- ==== Sys2Proof/Machine/Ops.lean ====
section
/-! DEFINITION. The named operations over registers, memory, the host channels and the run, which
every meaning is written with (00_scope.md R6). -/

namespace Sys2Proof.Machine

/-- What executing an instruction gives. -/
abbrev Result := Host.Outcome State Fault Refusal

/-! ### Bytes and words -/

/-- `zext_8(b)` (R6; decision D5, log 11). -/
def zext8 (b : Byte) : Word := b.setWidth 16

/-- `w[7:0]` (R5). -/
def lowByte (w : Word) : Byte := w.extractLsb' 0 8

/-- `w[15:8]` (R5). -/
def highByte (w : Word) : Byte := w.extractLsb' 8 8

/-! ### Registers -/

/-- `R[r]` (10_state.md R10). No register is hardwired. -/
def State.reg (s : State) (r : Reg) : Word := s.regs[r]

/-- `R[r] <- v` (R10). -/
def State.setReg (s : State) (r : Reg) (v : Word) : State :=
  { s with regs := s.regs.set r v }

/-- `pc <- v` (R12). -/
def State.setPc (s : State) (v : Word) : State := { s with pc := v }

/-- `R[7] <- pc`: the link that JSR, JSRR and TRAP write (R11). -/
def State.link (s : State) : State := s.setReg 7 s.pc

/-! ### Memory interface -/

/-- The non-blocking poll of the host input that a read of KBSR makes (20_memory.md R30). -/
def State.pollKeyboard (s : State) : State :=
  match s.input with
  | b :: rest =>
    { s with
      mem := (s.mem.write Config.kbsrAddr 0x8000#16).write Config.kbdrAddr (zext8 b)
      input := rest }
  | [] => { s with mem := s.mem.write Config.kbsrAddr 0x0000#16 }

/-- `MemRead(a, 16)`: the word read and the state after the read (R30). Every read of memory by the
CORE is this one (R45). -/
def State.memRead (s : State) (a : Word) : Word × State :=
  if a = Config.kbsrAddr then (s.pollKeyboard.mem.read Config.kbsrAddr, s.pollKeyboard)
  else (s.mem.read a, s)

/-- `MemWrite(a, 16, v)`: unconditional store, with no other effect at any address (R33, R34). -/
def State.memWrite (s : State) (a : Word) (v : Word) : State :=
  { s with mem := s.mem.write a v }

/-- The fetch and the increment of `pc` that precede every instruction: the word `ir` and the state in
which the instruction runs (40_fetch_dispatch.md R70, R71, R72). -/
def State.fetch (s : State) : Word × State :=
  ((s.memRead s.pc).1, (s.memRead s.pc).2.setPc (s.pc + 1))

/-! ### Host output -/

/-- `Out.put(b)` for each byte of `bs` in order (R23). -/
def State.putBytes (s : State) (bs : List Byte) : State := { s with output := s.output ++ bs }

/-- `Out.flush()`: no architectural effect (R23; decision D12, log 16). -/
def State.flush (s : State) : State := s

/-! ### The abort, and the end of a run -/

/-- `raise Fatal(cause)`: the one exceptional event of the machine (60_exceptions.md R140). It saves
nothing but the cause, enters no handler and changes no mode (R142). There is no return from it beside
it: RTI is itself fatal and nothing is ever restored (R148, R130). -/
def State.raiseFatal (s : State) (cause : FatalCause) : State :=
  { s with fault := some cause, running := false }

/-- `running <- 0` of the HALT service (44_trap.md R118). -/
def State.stopRunning (s : State) : State := { s with running := false }

/-- The condition a CORE is in (60_exceptions.md R154). -/
def State.condition (s : State) : Condition :=
  if s.running then
    match s.waiting with
    | none => .running
    | some w => .blocked w
  else .stopped

end Sys2Proof.Machine
end

