-- ==== Sys2Proof/Machine/Operands.lean ====
section
/-! DEFINITION. Operand forms: sign extension, the second operand of ADD and AND, and the addressing
modes (42_load_store.md R97). In a meaning `pc` is already the post-increment value (R72). -/

namespace Sys2Proof.Machine

/-- `sext_N(v)` of the N-bit field `v` (40_fetch_dispatch.md R74). -/
def sext {n : Nat} (v : BitVec n) : Word := v.signExtend 16

/-- The signed view of a word (00_scope.md R5). -/
def signedView (v : Word) : Int := v.toInt

/-- Second operand, register mode: `R[SR2]` (30_encoding.md R54). -/
def State.operandReg (s : State) (sr2 : Reg) : Word := s.reg sr2

/-- Second operand, immediate mode: `sext_5(imm5)` (R54). -/
def operandImm (imm : BitVec 5) : Word := sext imm

/-- PC-relative address with PCoffset9 (R97): LD, ST, LEA, the pointer of LDI and STI, and the target
of BR (R100). -/
def State.pcRel9 (s : State) (off : BitVec 9) : Word := s.pc + sext off

/-- PC-relative target with PCoffset11 (43_control.md R103): JSR. -/
def State.pcRel11 (s : State) (off : BitVec 11) : Word := s.pc + sext off

/-- Base plus offset address (R97): LDR, STR. -/
def State.baseRel6 (s : State) (base : Reg) (off : BitVec 6) : Word := s.reg base + sext off

/-- Indirect address: the word `MemRead` gives at the PC-relative address, with the state after that
read (R97): LDI, STI. -/
def State.indirect9 (s : State) (off : BitVec 9) : Word × State := s.memRead (s.pcRel9 off)

end Sys2Proof.Machine
end

