-- ==== Sys2Proof/Machine/Flags.lean ====
section
/-! DEFINITION. The condition register: `setcc`, the only operation that writes it (R15), and the
branch test, the only one that reads it. There is no carry or overflow flag (41_operate.md R85). -/

namespace Sys2Proof.Machine

/-- The flag value of a word: NEG if bit 15 is 1, ZRO if it is zero, POS otherwise
(40_fetch_dispatch.md R75). -/
def flagOf (v : Word) : Word :=
  if v.getLsbD 15 then Config.neg
  else if v = 0x0000#16 then Config.zro
  else Config.pos

/-- `setcc(r)`: COND from the current content of `R[r]` (R75). -/
def State.setcc (s : State) (r : Reg) : State := { s with cond := flagOf (s.reg r) }

/-- `R[DR] <- v` and then `setcc(DR)`: how each of the seven flag-setting instructions ends (R76). -/
def State.writeResult (s : State) (dr : Reg) (v : Word) : State := (s.setReg dr v).setcc dr

/-- The branch test `(nzp & COND[2:0]) != 0` (30_encoding.md R55). -/
def State.branchTaken (s : State) (nzp : BitVec 3) : Bool :=
  (nzp &&& s.cond.extractLsb' 0 3) != 0#3

end Sys2Proof.Machine
end

