-- ==== Sys2Proof/Machine/Control.lean ====
section
/-! DEFINITION. The control transfers BR (NOP), JMP (RET), JSR, JSRR (43_control.md). A transfer takes
effect at once and every target is legal (R105). -/

namespace Sys2Proof.Machine

/-- The branch of a mask and an offset, taken or not (R100). -/
def State.branch (s : State) (nzp : BitVec 3) (off : BitVec 9) : State :=
  if s.branchTaken nzp then s.setPc (s.pcRel9 off) else s

/-- `pc <- R[base]` (R101). -/
def State.jump (s : State) (base : Reg) : State := s.setPc (s.reg base)

/-- BR (R100). -/
def execBr (nzp : BitVec 3) (off : BitVec 9) (s : State) : Result := .next (s.branch nzp off)

/-- NOP: the branch with `nzp = 000`, which is never taken whatever its offset (R100, R63). -/
def execNop (off : BitVec 9) (s : State) : Result := .next (s.branch 0#3 off)

/-- JMP (R101). -/
def execJmp (base : Reg) (s : State) : Result := .next (s.jump base)

/-- RET: the jump with BaseR = 7 (R102). -/
def execRet (s : State) : Result := .next (s.jump 7)

/-- JSR: link and target are both from the post-increment `pc` (R103). -/
def execJsr (off : BitVec 11) (s : State) : Result := .next (s.link.setPc (s.pcRel11 off))

/-- JSRR: `R[7]` is written first and the base is read after it, so `JSRR R7` falls through (R104;
decision D6, log 10). -/
def execJsrr (base : Reg) (s : State) : Result := .next (s.link.setPc (s.link.reg base))

end Sys2Proof.Machine
end

