-- ==== Sys2Proof/Machine/Fatal.lean ====
section
/-! DEFINITION. The two fatal opcodes (45_fatal_opcodes.md): each raises the abort and does nothing
else. The abort is a next state, with the cause recorded (60_exceptions.md R140; log 13). -/

namespace Sys2Proof.Machine

/-- RTI (R130). -/
def execRti (s : State) : Result := .next (s.raiseFatal .rti)

/-- RES (R131). -/
def execRes (s : State) : Result := .next (s.raiseFatal .res)

end Sys2Proof.Machine
end

