-- ==== Sys2Proof/Machine/LoadStore.lean ====
section
/-! DEFINITION. The data movement instructions LD, LDI, LDR, LEA, ST, STI, STR (42_load_store.md).
Every read goes through `MemRead` and every write through `MemWrite` (20_memory.md R45), none can
fault (R97). -/

namespace Sys2Proof.Machine

/-- `R[DR] <- MemRead(a)`, then `setcc(DR)`: what the three loads share once the address is known. -/
def State.loadInto (s : State) (dr : Reg) (a : Word) : State :=
  (s.memRead a).2.writeResult dr (s.memRead a).1

/-- LD (R90). -/
def execLd (dr : Reg) (off : BitVec 9) (s : State) : Result :=
  .next (s.loadInto dr (s.pcRel9 off))

/-- LDI: the pointer is read first, then the data (R91). -/
def execLdi (dr : Reg) (off : BitVec 9) (s : State) : Result :=
  .next ((s.indirect9 off).2.loadInto dr (s.indirect9 off).1)

/-- LDR: the base is read before DR is written (R92). -/
def execLdr (dr base : Reg) (off : BitVec 6) (s : State) : Result :=
  .next (s.loadInto dr (s.baseRel6 base off))

/-- LEA: the address itself, with flags, and no memory access (R93). -/
def execLea (dr : Reg) (off : BitVec 9) (s : State) : Result :=
  .next (s.writeResult dr (s.pcRel9 off))

/-- ST (R94). -/
def execSt (sr : Reg) (off : BitVec 9) (s : State) : Result :=
  .next (s.memWrite (s.pcRel9 off) (s.reg sr))

/-- STI: the pointer is read, the target is only written (R95). -/
def execSti (sr : Reg) (off : BitVec 9) (s : State) : Result :=
  .next ((s.indirect9 off).2.memWrite (s.indirect9 off).1 (s.reg sr))

/-- STR (R96). -/
def execStr (sr base : Reg) (off : BitVec 6) (s : State) : Result :=
  .next (s.memWrite (s.baseRel6 base off) (s.reg sr))

end Sys2Proof.Machine
end

