-- ==== Sys2Proof/Machine/Operate.lean ====
section
/-! DEFINITION. The operate instructions ADD, AND, NOT (41_operate.md). Sources are read before the
destination is written, sums wrap modulo 2^16, nothing is raised (R85). -/

namespace Sys2Proof.Machine

/-- ADD, register mode (R80). -/
def execAddReg (dr sr1 sr2 : Reg) (s : State) : Result :=
  .next (s.writeResult dr (s.reg sr1 + s.operandReg sr2))

/-- ADD, immediate mode (R81). -/
def execAddImm (dr sr1 : Reg) (imm : BitVec 5) (s : State) : Result :=
  .next (s.writeResult dr (s.reg sr1 + operandImm imm))

/-- AND, register mode (R82). -/
def execAndReg (dr sr1 sr2 : Reg) (s : State) : Result :=
  .next (s.writeResult dr (s.reg sr1 &&& s.operandReg sr2))

/-- AND, immediate mode: the immediate is sign extended before the AND (R83). -/
def execAndImm (dr sr1 : Reg) (imm : BitVec 5) (s : State) : Result :=
  .next (s.writeResult dr (s.reg sr1 &&& operandImm imm))

/-- NOT: `R[SR] xor 0xFFFF` (R84). -/
def execNot (dr sr : Reg) (s : State) : Result :=
  .next (s.writeResult dr (s.reg sr ^^^ 0xFFFF#16))

end Sys2Proof.Machine
end

