-- ==== Sys2Proof/Machine/Trap.lean ====
section
/-! DEFINITION. TRAP and the six console services, done by the hardware itself (44_trap.md R121). TRAP
links, then its vector chooses a service or nothing (R110, R112); no service changes `pc` or COND. -/

namespace Sys2Proof.Machine

/-! ### Texts (ASCII, log 15) -/

/-- The 19 bytes of the prompt of IN, `Enter a character: ` (R116). -/
def promptBytes : List Byte :=
  [0x45#8, 0x6E#8, 0x74#8, 0x65#8, 0x72#8, 0x20#8, 0x61#8, 0x20#8, 0x63#8, 0x68#8, 0x61#8, 0x72#8,
   0x61#8, 0x63#8, 0x74#8, 0x65#8, 0x72#8, 0x3A#8, 0x20#8]

/-- `HALT` and newline (R118). -/
def haltBytes : List Byte := [0x48#8, 0x41#8, 0x4C#8, 0x54#8, 0x0A#8]

/-! ### Waiting for input -/

/-- What GETC and IN do with the byte they waited for (R113, R116): IN echoes it. -/
def State.takeByte (s : State) (w : WaitPoint) (b : Byte) : State :=
  match w with
  | .getc => s.setReg 0 (zext8 b)
  | .inChar => ((s.putBytes [b]).flush).setReg 0 (zext8 b)

/-- `wait In.avail()` and what follows it (R119): with a byte pending the service pops it and ends,
with none the CORE is blocked at the wait point and nothing else changes. It is also the step of a
CORE that is already blocked (log 4). -/
def State.awaitByte (s : State) (w : WaitPoint) : State :=
  match s.input with
  | b :: rest => State.takeByte { s with input := rest, waiting := none } w b
  | [] => { s with waiting := some w }

/-! ### The services, each after `R[7] <- pc` -/

/-- GETC (R113). -/
def serviceGetc (s : State) : Result := .next (s.awaitByte .getc)

/-- OUT (R114). -/
def serviceOut (s : State) : Result := .next ((s.putBytes [lowByte (s.reg 0)]).flush)

/-- The bytes PUTS emits for a cell: its low byte (R115). -/
def putsBytes (w : Word) : List Byte := [lowByte w]

/-- The bytes PUTSP emits for a cell: its low byte, then its high byte if that is not zero (R117). -/
def putspBytes (w : Word) : List Byte :=
  if highByte w = 0x00#8 then [lowByte w] else [lowByte w, highByte w]

/-- The loop of PUTS and PUTSP from address `a`, at most `fuel` cells (R115, R117, R120): each cell is
read once through `MemRead`, a zero word ends the loop, the address wraps (decision D9, log 14). -/
def printFrom (emit : Word → List Byte) : Nat → Word → State → Result
  | 0, _, _ => .fault .stringNeverEnds
  | fuel + 1, a, s =>
    if (s.memRead a).1 = 0x0000#16 then .next ((s.memRead a).2.flush)
    else printFrom emit fuel (a + 1) ((s.memRead a).2.putBytes (emit (s.memRead a).1))

/-- Cells that surely hold the end of the string: each lap of the 65 536 addresses polls the keyboard
once, and a poll that finds `In` empty reads as zero, which ends the loop (log 14). -/
def printFuel (s : State) : Nat := 65536 * (s.input.length + 1)

/-- PUTS (R115). -/
def servicePuts (s : State) : Result := printFrom putsBytes (printFuel s) (s.reg 0) s

/-- IN: the prompt comes before the wait point (R116). -/
def serviceIn (s : State) : Result := .next ((s.putBytes promptBytes).awaitByte .inChar)

/-- PUTSP (R117). -/
def servicePutsp (s : State) : Result := printFrom putspBytes (printFuel s) (s.reg 0) s

/-- HALT (R118). -/
def serviceHalt (s : State) : Result := .next (((s.putBytes haltBytes).flush).stopRunning)

/-! ### The instructions -/

/-- TRAP: the link for every vector, then the service, or nothing for the other 250 vectors (R110,
R111, R112). -/
def execTrap (vect : BitVec 8) (s : State) : Result :=
  if vect = 0x20#8 then serviceGetc s.link
  else if vect = 0x21#8 then serviceOut s.link
  else if vect = 0x22#8 then servicePuts s.link
  else if vect = 0x23#8 then serviceIn s.link
  else if vect = 0x24#8 then servicePutsp s.link
  else if vect = 0x25#8 then serviceHalt s.link
  else .next s.link

/-- GETC, the word of TRAP 0x20 (R113). -/
def execGetc (s : State) : Result := serviceGetc s.link

/-- OUT, the word of TRAP 0x21 (R114). -/
def execOut (s : State) : Result := serviceOut s.link

/-- PUTS, the word of TRAP 0x22 (R115). -/
def execPuts (s : State) : Result := servicePuts s.link

/-- IN, the word of TRAP 0x23 (R116). -/
def execIn (s : State) : Result := serviceIn s.link

/-- PUTSP, the word of TRAP 0x24 (R117). -/
def execPutsp (s : State) : Result := servicePutsp s.link

/-- HALT, the word of TRAP 0x25 (R118). -/
def execHalt (s : State) : Result := serviceHalt s.link

end Sys2Proof.Machine
end

