-- ==== Sys2Proof/Machine/Step.lean ====
section
/-! DEFINITION. One step of the CORE, and the placing of a word where the next step fetches. -/

namespace Sys2Proof.Machine

/-- One step (40_fetch_dispatch.md R70): fetch, increment `pc`, decode, execute. A blocked CORE tries
its wait point again (44_trap.md R119; log 4), and a stopped one holds its state (R77; log 5). -/
def step (s : State) : Host.Outcome State Fault Refusal :=
  match s.condition with
  | .running => exec (decode s.fetch.1) s.fetch.2
  | .blocked w => .next (s.awaitByte w)
  | .stopped => .next s

/-- Where the next fetch can read a stored word: the address in `pc`, unless that is KBSR, whose read
never returns a stored word (20_memory.md R34); then the reset address (log 19). -/
def State.fetchPlace (s : State) : Word :=
  if s.pc = Config.kbsrAddr then Config.pcReset else s.pc

/-- The state whose very next step fetches and runs the word `w` of `nbits` bits: the word stands
where the CORE fetches, and the CORE is running and not blocked (log 19). -/
def State.withFetchWord (s : State) (nbits w : Nat) : State :=
  { s with
    mem := s.mem.write s.fetchPlace (tableWord nbits w)
    pc := s.fetchPlace
    running := true
    waiting := none }

end Sys2Proof.Machine
end

