-- ==== Sys2Proof/Machine/Environment.lean ====
section
/-! DEFINITION. The host, the second agent (00_scope.md R7): what it does to the CORE between steps,
the initial memory it builds, and runs in which its acts and the CORE's steps alternate in any order.
A claim about every host behaviour is a claim about every list of events. -/

namespace Sys2Proof.Machine

/-! ### The initial memory `IMG` -/

/-- An image: the load address and the words placed from there on (70_reset_and_hazards.md R164), with
the byte that is left over where its file has an odd number of them (N23, log 20). -/
structure Image where
  origin : Word
  words : List Word
  odd : Option Byte := none
  deriving DecidableEq, Repr

/-- The words there is room for from the origin up to `0xFFFF`: `65536 − origin` (R164). -/
def Image.room (img : Image) : Nat := 65536 - img.origin.toNat

/-- Store words at consecutive addresses from `a`. -/
def Memory.place (m : Memory) (a : Word) : List Word → Memory
  | [] => m
  | w :: ws => Memory.place (m.write a w) (a + 1) ws

/-- The end of a file of odd length: the cell after the last whole word becomes the free value of
`Config.oddByteCell` (log 20). An odd byte for which there is no room is not read. -/
def Memory.placeOdd (m : Memory) (img : Image) : Memory :=
  match img.odd with
  | none => m
  | some b =>
    if img.words.length < img.room then
      m.write (img.origin + BitVec.ofNat 16 img.words.length)
        (Config.oddByteCell (img.origin + BitVec.ofNat 16 img.words.length) b
          (m.read (img.origin + BitVec.ofNat 16 img.words.length)))
    else m

/-- Load one image: at most `65536 − origin` words, so that it never wraps (R164). -/
def Memory.loadImage (m : Memory) (img : Image) : Memory :=
  (m.place img.origin (img.words.take img.room)).placeOdd img

/-- `IMG` from images in order, starting from all cells zero, later ones overwriting (R163). -/
def Memory.loadImages (imgs : List Image) : Memory := imgs.foldl Memory.loadImage []

/-- The whole words of a byte sequence, big-endian: the first of two bytes is bits 15:8 (R164). -/
def wordsOfBytes : List Byte → List Word
  | [] => []
  | [_] => []
  | hi :: lo :: rest => (hi ++ lo) :: wordsOfBytes rest

/-- The byte left over after the whole words. -/
def oddByteOf : List Byte → Option Byte
  | [] => none
  | [b] => some b
  | _ :: _ :: rest => oddByteOf rest

/-- The image of a file's bytes: the first word is the origin (R164). None for a file with no whole
word, which has no origin. -/
def imageOfBytes (bytes : List Byte) : Option Image :=
  match wordsOfBytes bytes with
  | origin :: words => some { origin := origin, words := words, odd := oddByteOf bytes }
  | [] => none

/-- Load a file. "Short reads are not an error; end-of-file terminates loading silently" (R164), so a
file that ends before a word after its origin loads nothing (DEDUCED for one that ends before its
origin, log 20). -/
def Memory.loadFile (m : Memory) (bytes : List Byte) : Memory :=
  match imageOfBytes bytes with
  | some img => m.loadImage img
  | none => m

/-- `IMG` from files in order (R163, R164). -/
def Memory.loadFiles (files : List (List Byte)) : Memory := files.foldl Memory.loadFile []

/-! ### The host's acts -/

/-- The host appends a byte to `In` (10_state.md R22). -/
def State.supplyByte (s : State) (b : Byte) : State := { s with input := s.input ++ [b] }

/-- Reset applied by the host at any time: every register, flag and cell, but not the channels
(R160, R25; decision D14). -/
def State.hostReset (s : State) (img : Memory) : State := State.resetWith img s.input s.output

/-- The host after the end of its input (44_trap.md R119; decision D8, log 18): under `hang` it appends
nothing, under `zero` each occurrence appends one more `0x00` byte. -/
def State.endOfInput (s : State) : Config.EofPolicy → State
  | .hang => s
  | .zero => s.supplyByte 0x00#8

/-! ### Runs -/

/-- What happens next in a run: a step of the CORE or an act of the host (decision D15, log 17). -/
inductive Event where
  | core
  | supply (b : Byte)
  | eof (policy : Config.EofPolicy)
  | reset (img : Memory)
  deriving DecidableEq, Repr

/-- The one event from a state. -/
def happen (e : Event) (s : State) : Result :=
  match e with
  | .core => step s
  | .supply b => .next (s.supplyByte b)
  | .eof policy => .next (s.endOfInput policy)
  | .reset img => .next (s.hostReset img)

/-- A run: the events in order, up to the first fault or refusal. -/
def runEvents : List Event → State → Result
  | [], s => .next s
  | e :: es, s =>
    match happen e s with
    | .next t => runEvents es t
    | .fault r => .fault r
    | .refused r => .refused r

end Sys2Proof.Machine
end

