-- ==== Sys2Proof/Safety.lean ====
section
/-! DEFINITION. How runs end (00_scope.md R8), the invariant of the machine, and the terms the
statements are written in: what a step leaves unchanged. -/

namespace Sys2Proof.Machine

/-! ### Ends of runs -/

/-- A clean halt: stopped with no cause recorded (R8, R77). -/
def State.cleanHalt (s : State) : Prop := s.running = false ∧ s.fault = none

/-- An aborted run: never a good final state (R8, R140). -/
def State.aborted (s : State) : Prop := s.running = false ∧ s.fault ≠ none

/-! ### The invariant -/

/-- What every reachable state satisfies: the memory is in canonical form, COND holds exactly one flag
(10_state.md R15), a recorded cause means the CORE is stopped (60_exceptions.md R140), and a CORE at a
wait point is running and has already linked (44_trap.md R119). -/
structure State.Inv (s : State) : Prop where
  mem_wf : s.mem.wf
  cond_one_flag : s.cond = Config.neg ∨ s.cond = Config.zro ∨ s.cond = Config.pos
  fault_stopped : s.fault ≠ none → s.running = false
  waiting_running : s.waiting ≠ none → s.running = true
  waiting_linked : s.waiting ≠ none → s.reg 7 = s.pc

/-- An event whose initial memory, if it has one, is in canonical form. -/
def Event.wf : Event → Prop
  | .core => True
  | .supply _ => True
  | .eof _ => True
  | .reset img => img.wf

end Sys2Proof.Machine

namespace Sys2Proof

/-! ### Which instruction may change what -/

/-- The instructions that end in `setcc(DR)` (40_fetch_dispatch.md R76). -/
def Instr.setsCond : Instr → Bool
  | .addReg _ _ _ | .addImm _ _ _ | .andReg _ _ _ | .andImm _ _ _ | .notReg _ _ => true
  | .ld _ _ | .ldi _ _ | .ldr _ _ _ | .lea _ _ => true
  | .br _ _ | .nop _ | .jmp _ | .ret | .jsr _ | .jsrr _ | .st _ _ | .sti _ _ | .str _ _ _ => false
  | .rti | .res | .trap _ | .getc | .out | .puts | .inChar | .putsp | .halt => false

/-- The instructions that write `pc` beyond the fetch (10_state.md R12). -/
def Instr.writesPc : Instr → Bool
  | .br _ _ | .jmp _ | .ret | .jsr _ | .jsrr _ => true
  | .addReg _ _ _ | .addImm _ _ _ | .andReg _ _ _ | .andImm _ _ _ | .notReg _ _ => false
  | .ld _ _ | .ldi _ _ | .ldr _ _ _ | .lea _ _ | .st _ _ | .sti _ _ | .str _ _ _ | .nop _ => false
  | .rti | .res | .trap _ | .getc | .out | .puts | .inChar | .putsp | .halt => false

/-- The instructions that store (20_memory.md R45). -/
def Instr.stores : Instr → Bool
  | .st _ _ | .sti _ _ | .str _ _ _ => true
  | .addReg _ _ _ | .addImm _ _ _ | .andReg _ _ _ | .andImm _ _ _ | .notReg _ _ => false
  | .ld _ _ | .ldi _ _ | .ldr _ _ _ | .lea _ _ => false
  | .br _ _ | .nop _ | .jmp _ | .ret | .jsr _ | .jsrr _ => false
  | .rti | .res | .trap _ | .getc | .out | .puts | .inChar | .putsp | .halt => false

/-- The instructions that stop the CORE: HALT and the two fatal opcodes (10_state.md R16). -/
def Instr.stopsCore : Instr → Bool
  | .rti | .res | .halt => true
  | .trap vect => vect == 0x25#8
  | .addReg _ _ _ | .addImm _ _ _ | .andReg _ _ _ | .andImm _ _ _ | .notReg _ _ => false
  | .ld _ _ | .ldi _ _ | .ldr _ _ _ | .lea _ _ | .st _ _ | .sti _ _ | .str _ _ _ => false
  | .br _ _ | .nop _ | .jmp _ | .ret | .jsr _ | .jsrr _ => false
  | .getc | .out | .puts | .inChar | .putsp => false

/-- The instructions that read memory or wait for the host beyond their fetch, hence could take a host
byte (20_memory.md R45; 10_state.md R22). -/
def Instr.mayTakeByte : Instr → Bool
  | .ld _ _ | .ldi _ _ | .ldr _ _ _ | .sti _ _ => true
  | .getc | .puts | .inChar | .putsp => true
  | .trap vect => vect == 0x20#8 || vect == 0x22#8 || vect == 0x23#8 || vect == 0x24#8
  | .addReg _ _ _ | .addImm _ _ _ | .andReg _ _ _ | .andImm _ _ _ | .notReg _ _ => false
  | .lea _ _ | .st _ _ | .str _ _ _ => false
  | .br _ _ | .nop _ | .jmp _ | .ret | .jsr _ | .jsrr _ => false
  | .rti | .res | .out | .halt => false

/-- The general-purpose registers an instruction may write (10_state.md R10). -/
def Instr.writtenRegs : Instr → List Reg
  | .addReg dr _ _ | .addImm dr _ _ | .andReg dr _ _ | .andImm dr _ _ | .notReg dr _ => [dr]
  | .ld dr _ | .ldi dr _ | .ldr dr _ _ | .lea dr _ => [dr]
  | .jsr _ | .jsrr _ | .out | .puts | .putsp | .halt => [7]
  | .getc | .inChar => [7, 0]
  | .trap vect => if vect = 0x20#8 ∨ vect = 0x23#8 then [7, 0] else [7]
  | .br _ _ | .nop _ | .jmp _ | .ret | .st _ _ | .sti _ _ | .str _ _ _ | .rti | .res => []

end Sys2Proof

namespace Sys2Proof.Machine

/-! ### Frames -/

/-- Every register outside `ds` is unchanged. -/
def regsSameBut (ds : List Reg) (s t : State) : Prop := ∀ r : Reg, r ∉ ds → t.reg r = s.reg r

/-- Every cell outside `as` reads as before. -/
def cellsSameBut (as : List Word) (s t : State) : Prop :=
  ∀ a : Word, a ∉ as → t.mem.read a = s.mem.read a

/-- The run flag, the recorded cause and the wait point are unchanged. -/
def runSame (s t : State) : Prop :=
  t.running = s.running ∧ t.fault = s.fault ∧ t.waiting = s.waiting

/-- Both host channels are unchanged. -/
def channelsSame (s t : State) : Prop := t.input = s.input ∧ t.output = s.output

/-- COND as `setcc` must leave it for the word `v`, by the signed view (40_fetch_dispatch.md R75). -/
def flagsDescribe (v cond : Word) : Prop :=
  (v.toInt < 0 → cond = 0x0004#16) ∧ (v.toInt = 0 → cond = 0x0002#16) ∧
    (0 < v.toInt → cond = 0x0001#16)

/-- What `MemRead(a, 16)` gives and does to memory and input, told without the model's own `memRead`
(20_memory.md R30, R32): `v` is the word read, `s` the state before and `t` one after. -/
def readGives (a : Word) (s t : State) (v : Word) : Prop :=
  (a ≠ 0xFE00#16 → v = s.mem.read a ∧ cellsSameBut [] s t ∧ t.input = s.input) ∧
  (a = 0xFE00#16 → s.input = [] →
    v = 0x0000#16 ∧ t.mem.read 0xFE00#16 = 0x0000#16 ∧ cellsSameBut [0xFE00#16] s t ∧ t.input = []) ∧
  (∀ b rest, a = 0xFE00#16 → s.input = b :: rest →
    v = 0x8000#16 ∧ t.mem.read 0xFE00#16 = 0x8000#16 ∧
      t.mem.read 0xFE02#16 = BitVec.ofNat 16 b.toNat ∧
      cellsSameBut [0xFE00#16, 0xFE02#16] s t ∧ t.input = rest)

/-- The non-zero words `ws` and then a zero word stand in memory from `a` on, none of their cells being
KBSR (44_trap.md R115, R117). -/
def stringAt (m : Memory) : Word → List Word → Prop
  | a, [] => a ≠ 0xFE00#16 ∧ m.read a = 0x0000#16
  | a, w :: ws => a ≠ 0xFE00#16 ∧ m.read a = w ∧ w ≠ 0x0000#16 ∧ stringAt m (a + 1) ws

end Sys2Proof.Machine
end

