-- ==== Sys2Proof/Certificates/Slice0/Obligations.lean ====
section
/-! DEFINITION. The statements for the provers, each with the rule of spec/ it formalises. A statement
about `exec` is about the state after the fetch, in which `pc` is already the post-increment value
(40_fetch_dispatch.md R72). -/

open Sys2Proof Sys2Proof.Machine

/-! ### Reset -/

/-- R160, R25: a reset by the host, from any state, puts every register, flag and cell at its reset
value and leaves the host channels as they were; `State.reset` has the same values, every cell zero and
both channels empty, and is what the host's reset with no image gives where the channels are empty. The
cause None is decision D10 (log 13), `waiting` none is log 4, the empty channels and the absence of an
image are the model's choice (logs 2 and 3). -/
def Obligations.ResetEstablishesEveryElement : Prop :=
  (∀ (s : State) (img : Memory),
    (∀ r, (s.hostReset img).reg r = 0x0000#16) ∧ (s.hostReset img).pc = 0x3000#16 ∧
    (s.hostReset img).cond = 0x0002#16 ∧ (s.hostReset img).running = true ∧
    (s.hostReset img).fault = none ∧ (s.hostReset img).waiting = none ∧
    (∀ a, (s.hostReset img).mem.read a = img.read a) ∧ channelsSame s (s.hostReset img)) ∧
  ((∀ r, State.reset.reg r = 0x0000#16) ∧ State.reset.pc = 0x3000#16 ∧
    State.reset.cond = 0x0002#16 ∧ State.reset.running = true ∧ State.reset.fault = none ∧
    State.reset.waiting = none ∧ (∀ a, State.reset.mem.read a = 0x0000#16) ∧
    State.reset.input = [] ∧ State.reset.output = []) ∧
  (∀ s : State, s.input = [] → s.output = [] → s.hostReset [] = State.reset)

/-- The invariant holds after every reset whose initial memory is in canonical form, and in
`State.reset`. -/
def Obligations.ResetStatesSatisfyInvariant : Prop :=
  State.reset.Inv ∧ ∀ (s : State) (img : Memory), img.wf → (s.hostReset img).Inv

/-! ### The invariant and progress -/

/-- Every step keeps the invariant: canonical memory, exactly one flag in COND (R15), a recorded cause
only in a stopped CORE (R140), a blocked CORE running and linked (R119). -/
def Obligations.StepKeepsInvariant : Prop :=
  ∀ s t : State, s.Inv → step s = .next t → t.Inv

/-- Whatever the host does and whenever it does it (R22, R119, R160; decisions D7, D15), a run from a
state with the invariant ends in one with the invariant. -/
def Obligations.RunsKeepInvariant : Prop :=
  ∀ (es : List Event) (s t : State), (∀ e ∈ es, e.wf) → s.Inv → runEvents es s = .next t → t.Inv

/-- No state makes the CORE fault or refuse: every instruction completes (R173, R141), PUTS and PUTSP
too, because a poll that finds `In` empty ends their string (log 14); a blocked and a stopped CORE hold
their state (logs 4 and 5). -/
def Obligations.EveryStepAnswersNext : Prop := ∀ s : State, ∃ t, step s = .next t

/-- Every instruction, in every state and with every operand, answers a next state: no instruction
faults on its operands or its addresses (R141, R43). Three parts of it are the model's choice and no
rule's: that GETC and IN with `In` empty answer a blocked state (log 4), that RTI and RES answer a state
with the abort recorded (decision D10, log 13), and that PUTS and PUTSP always end (DEDUCED, log 14). -/
def Obligations.EveryInstructionAnswersNext : Prop := ∀ (i : Instr) (s : State), ∃ t, exec i s = .next t

/-! ### Encoding -/

/-- Decoding an encoded well-formed instruction gives it back, with every operand at every value. -/
def Obligations.DecodeEncodeRoundTrip : Prop :=
  ∀ i : Instr, i.wellFormed = true → decode (encode i) = i

/-- The other direction: what the decoder reads is well-formed, and encoding it again gives the same
word but for the ignored bits (R58; decision D3, log 6). -/
def Obligations.EncodeDecodeKeepsMeaningfulBits : Prop :=
  ∀ w : Word, (decode w).wellFormed = true ∧
    encode (decode w) &&& ~~~(decode w).ignoredBits = w &&& ~~~(decode w).ignoredBits

/-- R60, with the mask and match of R57: every word is in exactly one of the nineteen rows, and it is
the row of the instruction the decoder reads (of its core form, where it reads an alias). The polarity
of the ADD and AND mode bit is decision D2 (log 6). -/
def Obligations.EveryWordHasExactlyOneRow : Prop :=
  ∀ w : Word,
    ([(0xF000#16, 0x0000#16), (0xF020#16, 0x1000#16), (0xF020#16, 0x1020#16), (0xF000#16, 0x2000#16),
      (0xF000#16, 0x3000#16), (0xF800#16, 0x4800#16), (0xF800#16, 0x4000#16), (0xF020#16, 0x5000#16),
      (0xF020#16, 0x5020#16), (0xF000#16, 0x6000#16), (0xF000#16, 0x7000#16), (0xF000#16, 0x8000#16),
      (0xF000#16, 0x9000#16), (0xF000#16, 0xA000#16), (0xF000#16, 0xB000#16), (0xF000#16, 0xC000#16),
      (0xF000#16, 0xD000#16), (0xF000#16, 0xE000#16), (0xF000#16, 0xF000#16)].filter
        fun row : Word × Word => w &&& row.1 = row.2) =
      [((decode w).core.rowMask, (decode w).core.rowMatch)]

/-- R52 and R58: for every format, the word with any value in each field AND any value in its ignored
bits (the variables `x`, `y`) decodes to the instruction with those fields. Positions, polarity and
ignored bits are decisions D1, D2, D3 (log 6). -/
def Obligations.DecodeReadsEveryLayout : Prop :=
  (∀ d a x b, decode (bitsAt 12 0b0001#4 ||| bitsAt 9 (selector d) ||| bitsAt 6 (selector a) |||
    bitsAt 5 0b0#1 ||| bitsAt 3 (x : BitVec 2) ||| bitsAt 0 (selector b)) = .addReg d a b) ∧
  (∀ d a x b, decode (bitsAt 12 0b0101#4 ||| bitsAt 9 (selector d) ||| bitsAt 6 (selector a) |||
    bitsAt 5 0b0#1 ||| bitsAt 3 (x : BitVec 2) ||| bitsAt 0 (selector b)) = .andReg d a b) ∧
  (∀ d a v, decode (bitsAt 12 0b0001#4 ||| bitsAt 9 (selector d) ||| bitsAt 6 (selector a) |||
    bitsAt 5 0b1#1 ||| bitsAt 0 v) = .addImm d a v) ∧
  (∀ d a v, decode (bitsAt 12 0b0101#4 ||| bitsAt 9 (selector d) ||| bitsAt 6 (selector a) |||
    bitsAt 5 0b1#1 ||| bitsAt 0 v) = .andImm d a v) ∧
  (∀ d a x, decode (bitsAt 12 0b1001#4 ||| bitsAt 9 (selector d) ||| bitsAt 6 (selector a) |||
    bitsAt 0 (x : BitVec 6)) = .notReg d a) ∧
  (∀ d v, decode (bitsAt 12 0b0010#4 ||| bitsAt 9 (selector d) ||| bitsAt 0 v) = .ld d v) ∧
  (∀ d v, decode (bitsAt 12 0b1010#4 ||| bitsAt 9 (selector d) ||| bitsAt 0 v) = .ldi d v) ∧
  (∀ d v, decode (bitsAt 12 0b1110#4 ||| bitsAt 9 (selector d) ||| bitsAt 0 v) = .lea d v) ∧
  (∀ d v, decode (bitsAt 12 0b0011#4 ||| bitsAt 9 (selector d) ||| bitsAt 0 v) = .st d v) ∧
  (∀ d v, decode (bitsAt 12 0b1011#4 ||| bitsAt 9 (selector d) ||| bitsAt 0 v) = .sti d v) ∧
  (∀ d a v, decode (bitsAt 12 0b0110#4 ||| bitsAt 9 (selector d) ||| bitsAt 6 (selector a) |||
    bitsAt 0 v) = .ldr d a v) ∧
  (∀ d a v, decode (bitsAt 12 0b0111#4 ||| bitsAt 9 (selector d) ||| bitsAt 6 (selector a) |||
    bitsAt 0 v) = .str d a v) ∧
  (∀ c v, decode (bitsAt 12 0b0000#4 ||| bitsAt 9 c ||| bitsAt 0 v) =
    if c = 0#3 then .nop v else .br c v) ∧
  (∀ x a y, decode (bitsAt 12 0b1100#4 ||| bitsAt 9 (x : BitVec 3) ||| bitsAt 6 (selector a) |||
    bitsAt 0 (y : BitVec 6)) = if a = 7 then .ret else .jmp a) ∧
  (∀ v, decode (bitsAt 12 0b0100#4 ||| bitsAt 11 0b1#1 ||| bitsAt 0 v) = .jsr v) ∧
  (∀ x a y, decode (bitsAt 12 0b0100#4 ||| bitsAt 11 0b0#1 ||| bitsAt 9 (x : BitVec 2) |||
    bitsAt 6 (selector a) ||| bitsAt 0 (y : BitVec 6)) = .jsrr a) ∧
  (∀ x v, decode (bitsAt 12 0b1111#4 ||| bitsAt 8 (x : BitVec 4) ||| bitsAt 0 v) = trapInstr v) ∧
  (∀ x, decode (bitsAt 12 0b1000#4 ||| bitsAt 0 (x : BitVec 12)) = .rti) ∧
  (∀ x, decode (bitsAt 12 0b1101#4 ||| bitsAt 0 (x : BitVec 12)) = .res)

/-- The words the spec writes out in its examples decode to the instructions it names (R63, and the
examples of R80 to R84, R90 to R96, R100 to R104, R112 to R118, R130 and R131). They rest on the field
positions of R51, the mode bits of R54 and the ignored bits of R58, which are decisions D1, D2, D3
(log 6, PRESUMED). -/
def Obligations.SpecWordsDecode : Prop :=
  decode 0xE002#16 = .lea 0 2#9 ∧ decode 0xF022#16 = .puts ∧ decode 0xF025#16 = .halt ∧
  decode 0x1401#16 = .addReg 2 0 1 ∧ decode 0x103F#16 = .addImm 0 0 0x1F#5 ∧
  decode 0x5642#16 = .andReg 3 1 2 ∧ decode 0x5020#16 = .andImm 0 0 0#5 ∧
  decode 0x923F#16 = .notReg 1 0 ∧ decode 0x2205#16 = .ld 1 5#9 ∧ decode 0xA001#16 = .ldi 0 1#9 ∧
  decode 0x647F#16 = .ldr 2 1 0x3F#6 ∧ decode 0x37FE#16 = .st 3 0x1FE#9 ∧
  decode 0xB001#16 = .sti 0 1#9 ∧ decode 0x7183#16 = .str 0 6 3#6 ∧ decode 0x0403#16 = .br 2#3 3#9 ∧
  decode 0xC080#16 = .jmp 2 ∧ decode 0xC1C0#16 = .ret ∧ decode 0x4801#16 = .jsr 1#11 ∧
  decode 0x40C0#16 = .jsrr 3 ∧ decode 0xF000#16 = .trap 0#8 ∧ decode 0xF020#16 = .getc ∧
  decode 0xF021#16 = .out ∧ decode 0xF023#16 = .inChar ∧ decode 0xF024#16 = .putsp ∧
  decode 0x8000#16 = .rti ∧ decode 0xD123#16 = .res ∧ decode 0x0000#16 = .nop 0#9

/-- R63: an alias has the word and the effect of the instruction it is another name of. -/
def Obligations.AliasesActAsTheirCoreInstruction : Prop :=
  ∀ i : Instr, encode i = encode i.core ∧ ∀ s : State, exec i s = exec i.core s

/-! ### The step -/

/-- R70, R71, R72: a running CORE that is not at a wait point reads the word at `pc` through `MemRead`,
increments `pc` modulo 2^16 and executes what that word decodes to; away from KBSR the word is the cell
and the fetch changes nothing but `pc`. -/
def Obligations.StepRunsDecodedInstruction : Prop :=
  ∀ s : State, s.running = true → s.waiting = none →
    step s = exec (decode (s.memRead s.pc).1) ((s.memRead s.pc).2.setPc (s.pc + 1)) ∧
    ∀ i : Instr, s.pc ≠ 0xFE00#16 → decode (s.mem.read s.pc) = i →
      step s = exec i (s.setPc (s.pc + 1))

/-- R71: a fetch at KBSR polls; with a byte pending the word is an RTI and the run aborts, with none it
is a BR that never branches. -/
def Obligations.FetchAtKbsrPolls : Prop :=
  ∀ s : State, s.running = true → s.waiting = none → s.pc = 0xFE00#16 →
    ∃ t, step s = .next t ∧ readGives 0xFE00#16 s t (t.mem.read 0xFE00#16) ∧ t.pc = 0xFE01#16 ∧
      regsSameBut [] s t ∧ t.cond = s.cond ∧ t.output = s.output ∧ t.waiting = none ∧
      (s.input = [] → t.running = true ∧ t.fault = s.fault) ∧
      (s.input ≠ [] → t.running = false ∧ t.fault = some .rti)

/-- R77, R154 (decision D20): a stopped CORE changes no state, whatever steps are asked of it; whatever
the host does short of a reset, only bytes are added to `In` and the CORE stays stopped; a reset sets it
running. That a step of a stopped CORE answers the same state is the model's choice (log 5). -/
def Obligations.StoppedCoreHoldsItsState : Prop :=
  ∀ s : State, s.running = false →
    (∀ n, runEvents (List.replicate n .core) s = .next s) ∧
    (∀ es : List Event, (∀ img, Event.reset img ∉ es) →
      ∃ bs t, runEvents es s = .next t ∧ t = { s with input := s.input ++ bs } ∧ t.running = false) ∧
    (∀ img, (s.hostReset img).running = true)

/-- R119, R154: a CORE at a wait point changes nothing while `In` is empty, and with a byte it ends the
service: GETC and IN put the byte in `R0`, IN echoes it. Holding the condition in `waiting` is the
model's choice (log 4); the zero extension is decision D5 (log 11). -/
def Obligations.BlockedCoreWaitsAndResumes : Prop :=
  ∀ (s : State) (w : WaitPoint), s.running = true → s.waiting = some w →
    (s.input = [] → step s = .next s) ∧
    (∀ b rest, s.input = b :: rest →
      ∃ t, step s = .next t ∧ t.reg 0 = BitVec.ofNat 16 b.toNat ∧ regsSameBut [0] s t ∧
        t.input = rest ∧ t.output = s.output ++ (match w with | .getc => [] | .inChar => [b]) ∧
        t.waiting = none ∧ t.pc = s.pc ∧ t.cond = s.cond ∧ cellsSameBut [] s t ∧
        t.running = true ∧ t.fault = s.fault)

/-! ### The memory interface -/

/-- R30: a `MemRead` of KBSR polls the host input, and its three results are those of the rule; the rest
of the state is unchanged. The zero extension of the byte is decision D5 (log 11). -/
def Obligations.ReadOfKbsrPolls : Prop :=
  ∀ s : State, readGives 0xFE00#16 s (s.memRead 0xFE00#16).2 (s.memRead 0xFE00#16).1 ∧
    regsSameBut [] s (s.memRead 0xFE00#16).2 ∧ (s.memRead 0xFE00#16).2.pc = s.pc ∧
    (s.memRead 0xFE00#16).2.cond = s.cond ∧ (s.memRead 0xFE00#16).2.output = s.output ∧
    runSame s (s.memRead 0xFE00#16).2

/-- R32. -/
def Obligations.ReadElsewhereChangesNothing : Prop :=
  ∀ (s : State) (a : Word), a ≠ 0xFE00#16 → s.memRead a = (s.mem.read a, s)

/-- R33: the cell holds the word, every other cell and everything else is unchanged, at any address,
the keyboard cells included. -/
def Obligations.WriteStoresExactlyOneCell : Prop :=
  ∀ (s : State) (a v : Word), (s.memWrite a v).mem.read a = v ∧ cellsSameBut [a] s (s.memWrite a v) ∧
    regsSameBut [] s (s.memWrite a v) ∧ (s.memWrite a v).pc = s.pc ∧ (s.memWrite a v).cond = s.cond ∧
    runSame s (s.memWrite a v) ∧ channelsSame s (s.memWrite a v)

/-- R34, R31: a word stored to KBSR is never read back, and two polls that both find a byte leave the
second byte in KBDR, the first being lost (decision D5, log 11). -/
def Obligations.PollOverwritesWhatStoodThere : Prop :=
  (∀ (s : State) (v : Word), ((s.memWrite 0xFE00#16 v).memRead 0xFE00#16).1 =
    if s.input = [] then 0x0000#16 else 0x8000#16) ∧
  (∀ (s : State) b c rest, s.input = b :: c :: rest →
    ((s.memRead 0xFE00#16).2.memRead 0xFE00#16).2.mem.read 0xFE02#16 = BitVec.ofNat 16 c.toNat ∧
    ((s.memRead 0xFE00#16).2.memRead 0xFE00#16).2.input = rest)

/-- R18, R4: for every content `IMG` of the 65 536 cells there is exactly one memory in canonical form
that reads so; no content is left out and none has two forms. -/
def Obligations.MemoryHoldsEveryImageOnce : Prop :=
  ∀ img : Word → Word, ∃ m : Memory, (m.wf ∧ ∀ a, m.read a = img a) ∧
    ∀ m' : Memory, m'.wf → (∀ a, m'.read a = img a) → m' = m

/-- R42: the word an ST puts at the address in `pc` is what the very next step executes. -/
def Obligations.StoreIsSeenByNextFetch : Prop :=
  ∀ (s : State) (sr : Reg), s.running = true → s.waiting = none → s.pc ≠ 0xFE00#16 →
    s.pc + 1 ≠ 0xFE00#16 → decode (s.mem.read s.pc) = .st sr 0#9 →
    ∃ t, step s = .next t ∧ t.pc = s.pc + 1 ∧
      step t = exec (decode (s.reg sr)) (t.setPc (s.pc + 2))

/-- R40 ("Store-then-load at the same non-MMIO address returns the value stored"), for STR and LDR; it
holds at KBDR too. -/
def Obligations.StoreThenLoadReturnsStored : Prop :=
  ∀ (s : State) (sr dr base : Reg) (off : BitVec 6), s.reg base + off.signExtend 16 ≠ 0xFE00#16 →
    ∃ t u, exec (.str sr base off) s = .next t ∧ exec (.ldr dr base off) t = .next u ∧
      u.reg dr = s.reg sr ∧ u.mem = t.mem

/-- R31(e), R167: a load that finds bit 15 of KBSR set is followed by a load of KBDR that gives the
byte (decision D5, log 11). -/
def Obligations.KbsrThenKbdrGivesTheByte : Prop :=
  ∀ (s : State) (d e base : Reg) b rest, s.reg base = 0xFE00#16 → d ≠ base → s.input = b :: rest →
    ∃ t u, exec (.ldr d base 0#6) s = .next t ∧ t.reg d = 0x8000#16 ∧ t.cond = 0x0004#16 ∧
      exec (.ldr e base 2#6) t = .next u ∧ u.reg e = BitVec.ofNat 16 b.toNat ∧ u.input = rest

/-! ### Helpers of the instructions -/

/-- R74: `sext_N` copies the field and fills bits `N..15` with its top bit, and it is the one word whose
signed view is the field read in two's complement. -/
def Obligations.SextIsTwosComplement : Prop :=
  ∀ (n : Nat) (v : BitVec n), 1 ≤ n → n ≤ 16 →
    (sext v).toNat = (if v.getLsbD (n - 1) then v.toNat + (2 ^ 16 - 2 ^ n) else v.toNat) ∧
    ∀ w : Word, w.toInt = v.toInt ↔ w = sext v

/-- R75: `setcc(r)` sets the whole of COND from the signed view of `R[r]`, and nothing else. -/
def Obligations.SetccClassifiesBySign : Prop :=
  ∀ (s : State) (r : Reg), flagsDescribe (s.reg r) (s.setcc r).cond ∧ regsSameBut [] s (s.setcc r) ∧
    (s.setcc r).pc = s.pc ∧ cellsSameBut [] s (s.setcc r) ∧ runSame s (s.setcc r) ∧
    channelsSame s (s.setcc r)

/-! ### Operate instructions -/

/-- R80: `R[DR] <- (R[SR1] + R[SR2]) mod 2^16`, flags from it, all else unchanged; DR may be a
source. -/
def Obligations.AddRegisterWritesWrappedSum : Prop :=
  ∀ (dr sr1 sr2 : Reg) (s : State), ∃ t, exec (.addReg dr sr1 sr2) s = .next t ∧
    (t.reg dr).toNat = ((s.reg sr1).toNat + (s.reg sr2).toNat) % 65536 ∧
    flagsDescribe (t.reg dr) t.cond ∧ regsSameBut [dr] s t ∧ t.pc = s.pc ∧ cellsSameBut [] s t ∧
    runSame s t ∧ channelsSame s t

/-- R81: the signed immediate is added modulo 2^16. -/
def Obligations.AddImmediateWritesWrappedSum : Prop :=
  ∀ (dr sr1 : Reg) (imm : BitVec 5) (s : State), ∃ t, exec (.addImm dr sr1 imm) s = .next t ∧
    t.reg dr = BitVec.ofInt 16 ((s.reg sr1).toInt + imm.toInt) ∧
    flagsDescribe (t.reg dr) t.cond ∧ regsSameBut [dr] s t ∧ t.pc = s.pc ∧ cellsSameBut [] s t ∧
    runSame s t ∧ channelsSame s t

/-- R82: bit by bit. -/
def Obligations.AndRegisterWritesConjunction : Prop :=
  ∀ (dr sr1 sr2 : Reg) (s : State), ∃ t, exec (.andReg dr sr1 sr2) s = .next t ∧
    (∀ k < 16, (t.reg dr).getLsbD k = ((s.reg sr1).getLsbD k && (s.reg sr2).getLsbD k)) ∧
    flagsDescribe (t.reg dr) t.cond ∧ regsSameBut [dr] s t ∧ t.pc = s.pc ∧ cellsSameBut [] s t ∧
    runSame s t ∧ channelsSame s t

/-- R83: bits 15:4 of the second operand are the top bit of `imm5`. -/
def Obligations.AndImmediateWritesConjunction : Prop :=
  ∀ (dr sr1 : Reg) (imm : BitVec 5) (s : State), ∃ t, exec (.andImm dr sr1 imm) s = .next t ∧
    (∀ k < 16, (t.reg dr).getLsbD k = ((s.reg sr1).getLsbD k && imm.getLsbD (min k 4))) ∧
    flagsDescribe (t.reg dr) t.cond ∧ regsSameBut [dr] s t ∧ t.pc = s.pc ∧ cellsSameBut [] s t ∧
    runSame s t ∧ channelsSame s t

/-- R84: every bit is complemented. -/
def Obligations.NotWritesComplement : Prop :=
  ∀ (dr sr : Reg) (s : State), ∃ t, exec (.notReg dr sr) s = .next t ∧
    (∀ k < 16, (t.reg dr).getLsbD k = !(s.reg sr).getLsbD k) ∧
    flagsDescribe (t.reg dr) t.cond ∧ regsSameBut [dr] s t ∧ t.pc = s.pc ∧ cellsSameBut [] s t ∧
    runSame s t ∧ channelsSame s t

/-! ### Data movement -/

/-- R90: LD writes what a read at `pc + sext_9` gives. -/
def Obligations.LdLoadsPcRelative : Prop :=
  ∀ (dr : Reg) (off : BitVec 9) (s : State), ∃ t, exec (.ld dr off) s = .next t ∧
    readGives (s.pc + off.signExtend 16) s t (t.reg dr) ∧ flagsDescribe (t.reg dr) t.cond ∧
    regsSameBut [dr] s t ∧ t.pc = s.pc ∧ runSame s t ∧ t.output = s.output

/-- R91: LDI reads the pointer, then the cell it names, both as `MemRead` does, in this order. -/
def Obligations.LdiLoadsThroughOnePointer : Prop :=
  ∀ (dr : Reg) (off : BitVec 9) (s : State), ∃ t, exec (.ldi dr off) s = .next t ∧
    (∃ (u : State) (p : Word), readGives (s.pc + off.signExtend 16) s u p ∧
      readGives p u t (t.reg dr)) ∧ flagsDescribe (t.reg dr) t.cond ∧
    regsSameBut [dr] s t ∧ t.pc = s.pc ∧ runSame s t ∧ t.output = s.output

/-- R92: LDR reads at the OLD base plus `sext_6`. -/
def Obligations.LdrLoadsBaseRelative : Prop :=
  ∀ (dr base : Reg) (off : BitVec 6) (s : State), ∃ t, exec (.ldr dr base off) s = .next t ∧
    readGives (s.reg base + off.signExtend 16) s t (t.reg dr) ∧ flagsDescribe (t.reg dr) t.cond ∧
    regsSameBut [dr] s t ∧ t.pc = s.pc ∧ runSame s t ∧ t.output = s.output

/-- R93: LEA writes the address, sets the flags, and reads nothing. -/
def Obligations.LeaWritesAddressAndFlags : Prop :=
  ∀ (dr : Reg) (off : BitVec 9) (s : State), ∃ t, exec (.lea dr off) s = .next t ∧
    t.reg dr = BitVec.ofInt 16 (s.pc.toInt + off.toInt) ∧ flagsDescribe (t.reg dr) t.cond ∧
    regsSameBut [dr] s t ∧ t.pc = s.pc ∧ cellsSameBut [] s t ∧ runSame s t ∧ channelsSame s t

/-- R94: ST stores to the cell at `pc + sext_9` and to no other; flags and registers unchanged. -/
def Obligations.StStoresPcRelative : Prop :=
  ∀ (sr : Reg) (off : BitVec 9) (s : State), ∃ t, exec (.st sr off) s = .next t ∧
    (∀ a, a = s.pc + off.signExtend 16 → t.mem.read a = s.reg sr ∧ cellsSameBut [a] s t) ∧
    regsSameBut [] s t ∧ t.cond = s.cond ∧ t.pc = s.pc ∧ runSame s t ∧ channelsSame s t

/-- R95: STI reads the pointer as `MemRead` does, then stores to the cell it names and to no other. -/
def Obligations.StiStoresThroughOnePointer : Prop :=
  ∀ (sr : Reg) (off : BitVec 9) (s : State), ∃ t, exec (.sti sr off) s = .next t ∧
    (∃ (u : State) (p : Word), readGives (s.pc + off.signExtend 16) s u p ∧
      t.mem.read p = s.reg sr ∧ cellsSameBut [p] u t ∧ t.input = u.input) ∧
    regsSameBut [] s t ∧ t.cond = s.cond ∧ t.pc = s.pc ∧ runSame s t ∧ t.output = s.output

/-- R96: STR stores to the cell at the base plus `sext_6` and to no other. -/
def Obligations.StrStoresBaseRelative : Prop :=
  ∀ (sr base : Reg) (off : BitVec 6) (s : State), ∃ t, exec (.str sr base off) s = .next t ∧
    (∀ a, a = s.reg base + off.signExtend 16 → t.mem.read a = s.reg sr ∧ cellsSameBut [a] s t) ∧
    regsSameBut [] s t ∧ t.cond = s.cond ∧ t.pc = s.pc ∧ runSame s t ∧ channelsSame s t

/-! ### Control transfer -/

/-- R100, R55: the branch is taken exactly when one of the three mask bits meets its flag; NOP, the BR
with no mask bit, never branches. Only `pc` can change. -/
def Obligations.BranchTestsMaskAgainstFlags : Prop :=
  (∀ (nzp : BitVec 3) (off : BitVec 9) (s : State), exec (.br nzp off) s = .next
    (if (nzp.getLsbD 2 && s.cond.getLsbD 2) || (nzp.getLsbD 1 && s.cond.getLsbD 1) ||
        (nzp.getLsbD 0 && s.cond.getLsbD 0)
      then s.setPc (s.pc + off.signExtend 16) else s)) ∧
  (∀ (off : BitVec 9) (s : State), exec (.nop off) s = .next s)

/-- R101, R102: JMP goes to the base register's value, RET to that of `R7`; only `pc` changes. -/
def Obligations.JumpGoesToBaseRegister : Prop :=
  ∀ (i : Instr) (base : Reg) (s : State), (i = .jmp base ∨ (i = .ret ∧ base = 7)) →
    ∃ t, exec i s = .next t ∧ t.pc = s.reg base ∧ regsSameBut [] s t ∧ t.cond = s.cond ∧
      cellsSameBut [] s t ∧ runSame s t ∧ channelsSame s t

/-- R103: JSR links and jumps, both from the post-increment `pc`, and a RET then comes back. -/
def Obligations.JsrLinksAndRetReturns : Prop :=
  ∀ (off : BitVec 11) (s : State), ∃ t, exec (.jsr off) s = .next t ∧ t.reg 7 = s.pc ∧
    t.pc = BitVec.ofInt 16 (s.pc.toInt + off.toInt) ∧ regsSameBut [7] s t ∧ t.cond = s.cond ∧
    cellsSameBut [] s t ∧ runSame s t ∧ channelsSame s t ∧
    ∃ u, exec .ret t = .next u ∧ u.pc = s.pc

/-- R104: JSRR links and jumps to the base; with BaseR = 7 it falls through, `R7` being written before
it is read (decision D6, log 10). -/
def Obligations.JsrrLinksThenReadsBase : Prop :=
  ∀ (base : Reg) (s : State), ∃ t, exec (.jsrr base) s = .next t ∧ t.reg 7 = s.pc ∧
    (base ≠ 7 → t.pc = s.reg base) ∧ (base = 7 → t.pc = s.pc) ∧ regsSameBut [7] s t ∧
    t.cond = s.cond ∧ cellsSameBut [] s t ∧ runSame s t ∧ channelsSame s t

/-! ### TRAP -/

/-- R112: the other 250 vectors write `R[7] <- pc` and do nothing else. -/
def Obligations.UndefinedVectorOnlyLinks : Prop :=
  ∀ (v : BitVec 8) (s : State), v.toNat < 0x20 ∨ 0x25 < v.toNat → ∃ t, exec (.trap v) s = .next t ∧
    t.reg 7 = s.pc ∧ regsSameBut [7] s t ∧ t.pc = s.pc ∧ t.cond = s.cond ∧ t.mem = s.mem ∧
    runSame s t ∧ channelsSame s t

/-- R113, R119: GETC links, then takes the oldest byte into `R0`, or is blocked at its wait point if
there is none (log 4; decision D5, log 11). -/
def Obligations.GetcTakesOneByteOrWaits : Prop :=
  ∀ (i : Instr) (s : State), (i = .getc ∨ i = .trap 0x20#8) → ∃ t, exec i s = .next t ∧
    t.reg 7 = s.pc ∧ t.pc = s.pc ∧ t.cond = s.cond ∧ t.output = s.output ∧ cellsSameBut [] s t ∧
    t.running = s.running ∧ t.fault = s.fault ∧
    (s.input = [] → t.waiting = some .getc ∧ t.input = [] ∧ regsSameBut [7] s t) ∧
    (∀ b rest, s.input = b :: rest → t.waiting = none ∧ t.input = rest ∧
      t.reg 0 = BitVec.ofNat 16 b.toNat ∧ regsSameBut [7, 0] s t)

/-- R114: OUT emits the low byte of `R0`. -/
def Obligations.OutEmitsLowByte : Prop :=
  ∀ (i : Instr) (s : State), (i = .out ∨ i = .trap 0x21#8) → ∃ t, exec i s = .next t ∧
    t.output = s.output ++ [BitVec.ofNat 8 ((s.reg 0).toNat % 256)] ∧ t.reg 7 = s.pc ∧
    regsSameBut [7] s t ∧ t.pc = s.pc ∧ t.cond = s.cond ∧ cellsSameBut [] s t ∧ runSame s t ∧
    t.input = s.input

/-- R115: a string of non-zero words and its zero word, off KBSR: PUTS emits each low byte in order and
changes nothing but `R7`. -/
def Obligations.PutsPrintsOneBytePerCell : Prop :=
  ∀ (i : Instr) (s : State) (ws : List Word), (i = .puts ∨ i = .trap 0x22#8) →
    stringAt s.mem (s.reg 0) ws → ∃ t, exec i s = .next t ∧
    t.output = s.output ++ ws.map (fun w => BitVec.ofNat 8 (w.toNat % 256)) ∧ t.reg 7 = s.pc ∧
    regsSameBut [7] s t ∧ t.pc = s.pc ∧ t.cond = s.cond ∧ cellsSameBut [] s t ∧ runSame s t ∧
    t.input = s.input

/-- R117: PUTSP emits the low byte of each word, then its high byte where that is not zero. -/
def Obligations.PutspPrintsTwoBytesPerCell : Prop :=
  ∀ (i : Instr) (s : State) (ws : List Word), (i = .putsp ∨ i = .trap 0x24#8) →
    stringAt s.mem (s.reg 0) ws → ∃ t, exec i s = .next t ∧
    t.output = s.output ++ ws.flatMap (fun w =>
      BitVec.ofNat 8 (w.toNat % 256) ::
        (if w.toNat / 256 = 0 then [] else [BitVec.ofNat 8 (w.toNat / 256)])) ∧
    t.reg 7 = s.pc ∧ regsSameBut [7] s t ∧ t.pc = s.pc ∧ t.cond = s.cond ∧ cellsSameBut [] s t ∧
    runSame s t ∧ t.input = s.input

/-- R120 (decision D9, log 14): on every memory, KBSR and the wrap included, PUTS and PUTSP read the
first cell through `MemRead`, end there if the word is zero, and otherwise emit it and go on as the same
service does from the next address. -/
def Obligations.PrintingReadsEachCellThroughMemRead : Prop :=
  ∀ (i : Instr) (emit : Word → List Byte) (s : State),
    ((i = .puts ∧ emit = putsBytes) ∨ (i = .putsp ∧ emit = putspBytes)) →
    ((s.memRead (s.reg 0)).1 = 0x0000#16 → exec i s = .next ((s.memRead (s.reg 0)).2.setReg 7 s.pc)) ∧
    ((s.memRead (s.reg 0)).1 ≠ 0x0000#16 → ∃ t,
      exec i (((s.memRead (s.reg 0)).2.putBytes (emit (s.memRead (s.reg 0)).1)).setReg 0
        (s.reg 0 + 1)) = .next t ∧
      exec i s = .next (t.setReg 0 (s.reg 0)))

/-- R116, R119: IN links and emits the prompt, then takes and echoes the oldest byte, or is blocked if
there is none (log 4; decision D5, log 11; the ASCII codes are log 15). -/
def Obligations.InPromptsThenTakesAndEchoes : Prop :=
  ∀ (i : Instr) (s : State), (i = .inChar ∨ i = .trap 0x23#8) → ∃ t, exec i s = .next t ∧
    t.reg 7 = s.pc ∧ t.pc = s.pc ∧ t.cond = s.cond ∧ cellsSameBut [] s t ∧
    t.running = s.running ∧ t.fault = s.fault ∧
    (s.input = [] → t.waiting = some .inChar ∧ t.input = [] ∧ regsSameBut [7] s t ∧
      t.output = s.output ++ "Enter a character: ".toList.map (fun c => BitVec.ofNat 8 c.toNat)) ∧
    (∀ b rest, s.input = b :: rest → t.waiting = none ∧ t.input = rest ∧
      t.reg 0 = BitVec.ofNat 16 b.toNat ∧ regsSameBut [7, 0] s t ∧
      t.output = s.output ++ "Enter a character: ".toList.map (fun c => BitVec.ofNat 8 c.toNat) ++ [b])

/-- R118: HALT links, emits `HALT` and newline (ASCII, log 15) and clears `running`; `fault` stays. -/
def Obligations.HaltPrintsAndStops : Prop :=
  ∀ (i : Instr) (s : State), (i = .halt ∨ i = .trap 0x25#8) → ∃ t, exec i s = .next t ∧
    t.running = false ∧ t.fault = s.fault ∧ t.waiting = s.waiting ∧
    t.output = s.output ++ "HALT\n".toList.map (fun c => BitVec.ofNat 8 c.toNat) ∧
    t.reg 7 = s.pc ∧ regsSameBut [7] s t ∧ t.pc = s.pc ∧ t.cond = s.cond ∧ cellsSameBut [] s t ∧
    t.input = s.input

/-! ### The fatal opcodes -/

/-- R130, R131, R140, R142: RTI and RES record their cause and stop the CORE, nothing else changes (the
record in `fault` is decision D10, log 13). -/
def Obligations.FatalOpcodesAbortPrecisely : Prop :=
  ∀ (i : Instr) (c : FatalCause) (s : State), ((i = .rti ∧ c = .rti) ∨ (i = .res ∧ c = .res)) →
    ∃ t, exec i s = .next t ∧ t.aborted ∧ t.fault = some c ∧ t.running = false ∧
      regsSameBut [] s t ∧ t.pc = s.pc ∧ t.cond = s.cond ∧ t.mem = s.mem ∧ t.waiting = s.waiting ∧
      channelsSame s t

/-! ### Rules about the whole machine -/

/-- R76, R15 (decision D4, log 12): no instruction but the seven changes COND, and each of the seven
leaves it describing the register it wrote. -/
def Obligations.CondWrittenOnlyBySeven : Prop :=
  ∀ (i : Instr) (s t : State), exec i s = .next t →
    (i.setsCond = false → t.cond = s.cond) ∧
    (i.setsCond = true → ∃ dr, i.writtenRegs = [dr] ∧ flagsDescribe (t.reg dr) t.cond)

/-- R10: an instruction leaves every register alone that is not in its row of the table. -/
def Obligations.RegistersWrittenOnlyByTheirRows : Prop :=
  ∀ (i : Instr) (s t : State), exec i s = .next t → regsSameBut i.writtenRegs s t

/-- R12, R121: beyond the fetch only BR, JMP, JSR and JSRR write `pc`. -/
def Obligations.PcWrittenOnlyByControlTransfers : Prop :=
  ∀ (i : Instr) (s t : State), exec i s = .next t → i.writesPc = false → t.pc = s.pc

/-- R18, R45: an instruction that does not store changes no cell but the two the poll writes. -/
def Obligations.CellsChangedOnlyByStoresAndPolls : Prop :=
  ∀ (i : Instr) (s t : State), exec i s = .next t → i.stores = false →
    cellsSameBut [0xFE00#16, 0xFE02#16] s t

/-- R16, R17, R141: `running` falls only by HALT, RTI and RES, and `fault` is set only by RTI and
RES (decision D10, log 13). -/
def Obligations.RunEndsOnlyByHaltAndAbort : Prop :=
  ∀ (i : Instr) (s t : State), exec i s = .next t →
    (i.stopsCore = true → t.running = false) ∧ (i.stopsCore = false → t.running = s.running) ∧
    (i = .rti → t.fault = some .rti) ∧ (i = .res → t.fault = some .res) ∧
    (i ≠ .rti → i ≠ .res → t.fault = s.fault)

/-- R22, R23: a step takes bytes from the front of `In` only, never puts one back, and only appends to
`Out`. -/
def Obligations.ChannelsMoveInOrder : Prop :=
  ∀ s t : State, step s = .next t →
    (∃ n, t.input = s.input.drop n) ∧ ∃ bs, t.output = s.output ++ bs

/-- R23: the CORE never reads `Out` back: with any other bytes in `Out` a step does the same and
appends the same. -/
def Obligations.OutputIsNeverReadBack : Prop :=
  ∀ (s t : State) (out : List Byte), step s = .next t →
    ∃ bs, t.output = s.output ++ bs ∧
      step { s with output := out } = .next { t with output := out ++ bs }

/-- R31(c) ("For any non-I/O program, running it from the same initial memory is deterministic"): an
instruction that neither reads memory nor waits for the host does the same whatever stands in `In`. -/
def Obligations.InputUnseenWithoutReadOrWait : Prop :=
  ∀ (i : Instr) (s t : State) (inp : List Byte), i.mayTakeByte = false → exec i s = .next t →
    t.input = s.input ∧ exec i { s with input := inp } = .next { t with input := inp }

/-! ### The initial memory -/

/-- R164: a file of an origin and words, each as its high byte and then its low byte, loads the words
from the origin on, as far as `0xFFFF`, and changes no other cell. With an odd byte after the words
(`odd` of length 1) the same holds of every cell but the one after the last word, whose content is free
(log 20). A file that ends before its origin word is whole loads nothing (DEDUCED, log 20). -/
def Obligations.FileLoadsItsWholeWords : Prop :=
  (∀ (m : Memory) (origin : Word) (ws : List Word) (odd : List Byte) (a : Word), odd.length ≤ 1 →
    odd = [] ∨ a.toNat ≠ origin.toNat + ws.length →
    (m.loadFile ((origin :: ws).flatMap (fun w =>
      [BitVec.ofNat 8 (w.toNat / 256), BitVec.ofNat 8 (w.toNat % 256)]) ++ odd)).read a =
      if origin.toNat ≤ a.toNat then (ws[a.toNat - origin.toNat]?).getD (m.read a) else m.read a) ∧
  (∀ (m : Memory) (bytes : List Byte), bytes.length < 2 → m.loadFile bytes = m)
end

