-- ==== Sys2Proof/Laws/Encoding.lean ====
section
/-! SUPPORT. Reading one bit of a word the encoder writes, and one bit of a field the decoder reads:
with these a question about encodings is a question about single bits. -/

namespace Sys2Proof

theorem bitsAt_getLsbD {n : Nat} (lo : Nat) (v : BitVec n) (i : Nat) :
    (bitsAt lo v).getLsbD i = (decide (i < 16) && (!decide (i < lo) && v.getLsbD (i - lo))) := by
  by_cases h : i < 16
  · have h' : i - lo < 16 := by omega
    simp [bitsAt, h, h', -BitVec.getLsbD_eq_getElem]
  · simp [bitsAt, h, -BitVec.getLsbD_eq_getElem]

theorem selector_toFin (r : Reg) : (selector r).toFin = r := rfl

/-- Two words with the same sixteen bits are the same. -/
theorem word_eq_of_bits {v w : Word} (h : ∀ i < 16, v.getLsbD i = w.getLsbD i) : v = w :=
  BitVec.eq_of_getLsbD_eq fun i hi => h i hi

theorem regAt9_eq {w : Word} {r : Reg} (h : ∀ i < 3, w.getLsbD (9 + i) = (selector r).getLsbD i) :
    regAt9 w = r := by
  have e : w.extractLsb' 9 3 = selector r := by
    apply BitVec.eq_of_getLsbD_eq
    intro i hi
    rw [BitVec.getLsbD_extractLsb', h i hi]
    simp [hi]
  rw [regAt9, e, selector_toFin]

theorem regAt6_eq {w : Word} {r : Reg} (h : ∀ i < 3, w.getLsbD (6 + i) = (selector r).getLsbD i) :
    regAt6 w = r := by
  have e : w.extractLsb' 6 3 = selector r := by
    apply BitVec.eq_of_getLsbD_eq
    intro i hi
    rw [BitVec.getLsbD_extractLsb', h i hi]
    simp [hi]
  rw [regAt6, e, selector_toFin]

theorem regAt0_eq {w : Word} {r : Reg} (h : ∀ i < 3, w.getLsbD (0 + i) = (selector r).getLsbD i) :
    regAt0 w = r := by
  have e : w.extractLsb' 0 3 = selector r := by
    apply BitVec.eq_of_getLsbD_eq
    intro i hi
    rw [BitVec.getLsbD_extractLsb', h i hi]
    simp [hi]
  rw [regAt0, e, selector_toFin]

/-- An immediate read from bit 0 is the field that stands there. -/
theorem extract0_eq {w : Word} {n : Nat} {v : BitVec n}
    (h : ∀ i < n, w.getLsbD (0 + i) = v.getLsbD i) : w.extractLsb' 0 n = v := by
  apply BitVec.eq_of_getLsbD_eq
  intro i hi
  rw [BitVec.getLsbD_extractLsb', h i hi]
  simp [hi]

end Sys2Proof
end

