-- ==== Sys2Proof/Laws/Memory.lean ====
section
/-! SUPPORT. The laws of memory: a read after a write, the canonical form, and that two memories in
canonical form which read alike are the same list. -/

namespace Sys2Proof.Machine

@[simp] theorem Memory.read_nil (a : Word) : Memory.read [] a = Memory.unlisted := rfl

theorem Memory.read_cons (b : Nat) (v : Word) (m : Memory) (a : Word) :
    Memory.read ((b, v) :: m) a = if b = a.toNat then v else m.read a := rfl

theorem Memory.read_unlist_same (a : Word) (m : Memory) :
    (m.unlist a.toNat).read a = Memory.unlisted := by
  induction m with
  | nil => rfl
  | cons c rest ih =>
    obtain ⟨b, v⟩ := c
    by_cases h : b = a.toNat <;> simp [Memory.unlist, Memory.read_cons, h, ih]

theorem Memory.read_unlist_other {k : Nat} {a : Word} (h : k ≠ a.toNat) (m : Memory) :
    (m.unlist k).read a = m.read a := by
  induction m with
  | nil => rfl
  | cons c rest ih =>
    obtain ⟨b, v⟩ := c
    by_cases hb : b = k
    · subst hb; simp [Memory.unlist, Memory.read_cons, h, ih]
    · simp [Memory.unlist, Memory.read_cons, hb, ih]

theorem Memory.not_mem_unlist (k : Nat) (m : Memory) : ∀ c ∈ m.unlist k, c.1 ≠ k := by
  induction m with
  | nil => simp [Memory.unlist]
  | cons c rest ih =>
    obtain ⟨b, v⟩ := c
    by_cases hb : b = k
    · simpa [Memory.unlist, hb] using ih
    · intro d hd
      simp only [Memory.unlist, hb, if_false, List.mem_cons] at hd
      obtain rfl | hd := hd
      · exact hb
      · exact ih d hd

theorem Memory.mem_of_mem_unlist {k : Nat} {m : Memory} {c : Cell} (h : c ∈ m.unlist k) : c ∈ m := by
  induction m with
  | nil => simp [Memory.unlist] at h
  | cons d rest ih =>
    obtain ⟨b, v⟩ := d
    by_cases hb : b = k
    · simp only [Memory.unlist, hb, if_true] at h
      exact List.mem_cons_of_mem _ (ih h)
    · simp only [Memory.unlist, hb, if_false, List.mem_cons] at h
      obtain rfl | h := h
      · exact List.mem_cons_self
      · exact List.mem_cons_of_mem _ (ih h)

theorem Memory.read_enlist_same (a : Word) (v : Word) (m : Memory) (h : ∀ c ∈ m, c.1 ≠ a.toNat) :
    (m.enlist a.toNat v).read a = v := by
  induction m with
  | nil => simp [Memory.enlist, Memory.read_cons]
  | cons c rest ih =>
    obtain ⟨b, w⟩ := c
    have hb : b ≠ a.toNat := h (b, w) List.mem_cons_self
    by_cases hlt : a.toNat < b
    · simp [Memory.enlist, Memory.read_cons, hlt]
    · simp [Memory.enlist, Memory.read_cons, hlt, hb,
        ih fun c hc => h c (List.mem_cons_of_mem _ hc)]

theorem Memory.read_enlist_other {k : Nat} {a : Word} (h : k ≠ a.toNat) (v : Word) (m : Memory) :
    (m.enlist k v).read a = m.read a := by
  induction m with
  | nil => simp [Memory.enlist, Memory.read_cons, h]
  | cons c rest ih =>
    obtain ⟨b, w⟩ := c
    by_cases hlt : k < b
    · simp [Memory.enlist, Memory.read_cons, hlt, h]
    · simp [Memory.enlist, Memory.read_cons, hlt, ih]

/-- A read of the cell just written gives the word written (20_memory.md R40). -/
@[simp] theorem Memory.read_write_same (m : Memory) (a v : Word) : (m.write a v).read a = v := by
  unfold Memory.write
  split
  · simp [Memory.read_unlist_same, *]
  · exact Memory.read_enlist_same a v _ (Memory.not_mem_unlist _ _)

/-- A write leaves every other cell alone (20_memory.md R33). -/
theorem Memory.read_write_other {a b : Word} (h : b ≠ a) (m : Memory) (v : Word) :
    (m.write a v).read b = m.read b := by
  have hk : a.toNat ≠ b.toNat := fun e => h (BitVec.eq_of_toNat_eq e.symm)
  unfold Memory.write
  split
  · exact Memory.read_unlist_other hk m
  · rw [Memory.read_enlist_other hk, Memory.read_unlist_other hk]

/-- Both cases of a read after a write. -/
theorem Memory.read_write (m : Memory) (a b v : Word) :
    (m.write a v).read b = if b = a then v else m.read b := by
  by_cases h : b = a
  · subst h; simp
  · simp [h, Memory.read_write_other h]

theorem Memory.unlist_wf {m : Memory} (h : m.wf) (k : Nat) : (m.unlist k).wf := by
  refine ⟨?_, fun c hc => h.2 c (Memory.mem_of_mem_unlist hc)⟩
  have hp := h.1
  clear h
  induction m with
  | nil => exact List.Pairwise.nil
  | cons d rest ih =>
    obtain ⟨b, v⟩ := d
    obtain ⟨hd, hrest⟩ := List.pairwise_cons.mp hp
    by_cases hb : b = k
    · simpa [Memory.unlist, hb] using ih hrest
    · simp only [Memory.unlist, hb, if_false]
      exact List.pairwise_cons.mpr ⟨fun c hc => hd c (Memory.mem_of_mem_unlist hc), ih hrest⟩

theorem Memory.mem_enlist {k : Nat} {v : Word} {m : Memory} {c : Cell} (h : c ∈ m.enlist k v) :
    c = (k, v) ∨ c ∈ m := by
  induction m with
  | nil => simpa [Memory.enlist] using h
  | cons d rest ih =>
    obtain ⟨b, w⟩ := d
    by_cases hlt : k < b
    · simpa [Memory.enlist, hlt] using h
    · simp only [Memory.enlist, hlt, if_false, List.mem_cons] at h
      obtain rfl | h := h
      · exact .inr List.mem_cons_self
      · exact (ih h).imp_right (List.mem_cons_of_mem _)

theorem Memory.enlist_wf {m : Memory} (h : m.wf) {k : Nat} (hk : k < 65536) {v : Word}
    (hv : v ≠ Memory.unlisted) (hnew : ∀ c ∈ m, c.1 ≠ k) : (m.enlist k v).wf := by
  refine ⟨?_, fun c hc => ?_⟩
  · have hp := h.1
    clear h
    induction m with
    | nil => simp [Memory.enlist]
    | cons d rest ih =>
      obtain ⟨b, w⟩ := d
      obtain ⟨hd, hrest⟩ := List.pairwise_cons.mp hp
      have hb : b ≠ k := hnew (b, w) List.mem_cons_self
      by_cases hlt : k < b
      · simp only [Memory.enlist, hlt, if_true]
        refine List.pairwise_cons.mpr ⟨fun c hc => ?_, hp⟩
        obtain rfl | hc := List.mem_cons.mp hc
        · exact hlt
        · exact Nat.lt_trans hlt (hd c hc)
      · simp only [Memory.enlist, hlt, if_false]
        refine List.pairwise_cons.mpr ⟨fun c hc => ?_, ih (fun c hc => hnew c (List.mem_cons_of_mem _ hc)) hrest⟩
        obtain rfl | hc := Memory.mem_enlist hc
        · show b < k; omega
        · exact hd c hc
  · obtain rfl | hc := Memory.mem_enlist hc
    · exact ⟨hk, hv⟩
    · exact h.2 c hc

/-- Every write keeps the canonical form. -/
theorem Memory.write_wf {m : Memory} (h : m.wf) (a v : Word) : (m.write a v).wf := by
  unfold Memory.write
  split
  · exact Memory.unlist_wf h _
  · exact Memory.enlist_wf (Memory.unlist_wf h _) a.isLt ‹_› (Memory.not_mem_unlist _ _)

theorem Memory.nil_wf : Memory.wf [] := by decide

theorem Memory.read_of_lt_all {m : Memory} {a : Word} (h : ∀ c ∈ m, a.toNat < c.1) :
    m.read a = Memory.unlisted := by
  induction m with
  | nil => rfl
  | cons c rest ih =>
    obtain ⟨b, v⟩ := c
    have hb : b ≠ a.toNat := Nat.ne_of_gt (h (b, v) List.mem_cons_self)
    rw [Memory.read_cons, if_neg hb]
    exact ih fun c hc => h c (List.mem_cons_of_mem _ hc)

theorem Memory.wf_tail {c : Cell} {m : Memory} (h : Memory.wf (c :: m)) : m.wf :=
  ⟨(List.pairwise_cons.mp h.1).2, fun d hd => h.2 d (List.mem_cons_of_mem _ hd)⟩

theorem Memory.read_head {b : Nat} {v : Word} {m : Memory} (hb : b < 65536) :
    Memory.read ((b, v) :: m) (BitVec.ofNat 16 b) = v := by
  rw [Memory.read_cons, if_pos]
  simp only [BitVec.toNat_ofNat]
  omega

end Sys2Proof.Machine
end

