-- ==== Sys2Proof/Laws/Environment.lean ====
section
/-! SUPPORT. What placing words and loading images do to memory. -/

namespace Sys2Proof.Machine

@[simp] theorem Memory.place_nil (m : Memory) (a : Word) : m.place a [] = m := rfl

@[simp] theorem Memory.place_cons (m : Memory) (a w : Word) (ws : List Word) :
    m.place a (w :: ws) = (m.write a w).place (a + 1) ws := rfl

/-- Words placed with room up to `0xFFFF` stand in their cells, and no other cell changes. -/
theorem Memory.read_place (m : Memory) (a : Word) (ws : List Word) (h : a.toNat + ws.length ≤ 65536)
    (b : Word) : (m.place a ws).read b =
      if a.toNat ≤ b.toNat then (ws[b.toNat - a.toNat]?).getD (m.read b) else m.read b := by
  induction ws generalizing m a with
  | nil => simp
  | cons w ws ih =>
    rw [List.length_cons] at h
    cases ws with
    | nil =>
      rw [Memory.place_cons, Memory.place_nil, Memory.read_write]
      by_cases e : b = a
      · subst e; simp
      · have hne : b.toNat ≠ a.toNat := fun k => e (BitVec.eq_of_toNat_eq k)
        rw [if_neg e]
        split
        · obtain ⟨k, hk⟩ : ∃ k, b.toNat - a.toNat = k + 1 := ⟨b.toNat - a.toNat - 1, by omega⟩
          simp [hk]
        · rfl
    | cons v vs =>
      have hs : (a + 1).toNat = a.toNat + 1 := by
        rw [List.length_cons] at h
        have h1 : (1 : Word).toNat = 1 := rfl
        rw [BitVec.toNat_add, h1]
        omega
      rw [Memory.place_cons, ih _ _ (by omega), hs, Memory.read_write]
      by_cases e : b = a
      · subst e
        simp
      · have hne : b.toNat ≠ a.toNat := fun k => e (BitVec.eq_of_toNat_eq k)
        rw [if_neg e]
        by_cases hlt : a.toNat + 1 ≤ b.toNat
        · have hk : b.toNat - a.toNat = (b.toNat - (a.toNat + 1)) + 1 := by omega
          rw [if_pos hlt, if_pos (by omega), hk, List.getElem?_cons_succ]
        · rw [if_neg hlt, if_neg (by omega)]

theorem Memory.place_wf {m : Memory} (h : m.wf) (a : Word) (ws : List Word) : (m.place a ws).wf := by
  induction ws generalizing m a with
  | nil => exact h
  | cons w ws ih => exact ih (Memory.write_wf h a w) (a + 1)

/-- The end of a file changes at most the one cell after the last whole word. -/
theorem Memory.read_placeOdd_other (m : Memory) (img : Image) {b : Word}
    (h : img.odd = none ∨ b ≠ img.origin + BitVec.ofNat 16 img.words.length) :
    (m.placeOdd img).read b = m.read b := by
  unfold Memory.placeOdd
  split
  · rfl
  · rename_i heq
    split
    · obtain h | h := h
      · exact absurd (heq.symm.trans h) (by simp)
      · exact Memory.read_write_other h m _
    · rfl

theorem Memory.placeOdd_wf {m : Memory} (h : m.wf) (img : Image) : (m.placeOdd img).wf := by
  unfold Memory.placeOdd
  split
  · exact h
  · split
    · exact Memory.write_wf h _ _
    · exact h

theorem Memory.loadImage_wf {m : Memory} (h : m.wf) (img : Image) : (m.loadImage img).wf :=
  Memory.placeOdd_wf (Memory.place_wf h _ _) img

/-- Loading a file keeps the canonical form of memory. -/
theorem Memory.loadFile_wf {m : Memory} (h : m.wf) (bytes : List Byte) : (m.loadFile bytes).wf := by
  unfold Memory.loadFile
  split
  · exact Memory.loadImage_wf h _
  · exact h

end Sys2Proof.Machine
end

