-- ==== Sys2Proof/Laws/State.lean ====
section
/-! SUPPORT. One lemma per field per update, so that no proof unfolds a record update, and the register
laws. -/

namespace Sys2Proof.Machine

@[simp] theorem State.setReg_regs (s : State) (r : Reg) (v : Word) :
    (s.setReg r v).regs = s.regs.set r v := rfl
@[simp] theorem State.setReg_pc (s : State) (r : Reg) (v : Word) :
    (s.setReg r v).pc = s.pc := rfl
@[simp] theorem State.setReg_cond (s : State) (r : Reg) (v : Word) :
    (s.setReg r v).cond = s.cond := rfl
@[simp] theorem State.setReg_running (s : State) (r : Reg) (v : Word) :
    (s.setReg r v).running = s.running := rfl
@[simp] theorem State.setReg_fault (s : State) (r : Reg) (v : Word) :
    (s.setReg r v).fault = s.fault := rfl
@[simp] theorem State.setReg_mem (s : State) (r : Reg) (v : Word) :
    (s.setReg r v).mem = s.mem := rfl
@[simp] theorem State.setReg_input (s : State) (r : Reg) (v : Word) :
    (s.setReg r v).input = s.input := rfl
@[simp] theorem State.setReg_output (s : State) (r : Reg) (v : Word) :
    (s.setReg r v).output = s.output := rfl
@[simp] theorem State.setReg_waiting (s : State) (r : Reg) (v : Word) :
    (s.setReg r v).waiting = s.waiting := rfl

@[simp] theorem State.setPc_regs (s : State) (v : Word) :
    (s.setPc v).regs = s.regs := rfl
@[simp] theorem State.setPc_pc (s : State) (v : Word) :
    (s.setPc v).pc = v := rfl
@[simp] theorem State.setPc_cond (s : State) (v : Word) :
    (s.setPc v).cond = s.cond := rfl
@[simp] theorem State.setPc_running (s : State) (v : Word) :
    (s.setPc v).running = s.running := rfl
@[simp] theorem State.setPc_fault (s : State) (v : Word) :
    (s.setPc v).fault = s.fault := rfl
@[simp] theorem State.setPc_mem (s : State) (v : Word) :
    (s.setPc v).mem = s.mem := rfl
@[simp] theorem State.setPc_input (s : State) (v : Word) :
    (s.setPc v).input = s.input := rfl
@[simp] theorem State.setPc_output (s : State) (v : Word) :
    (s.setPc v).output = s.output := rfl
@[simp] theorem State.setPc_waiting (s : State) (v : Word) :
    (s.setPc v).waiting = s.waiting := rfl

@[simp] theorem State.setcc_regs (s : State) (r : Reg) :
    (s.setcc r).regs = s.regs := rfl
@[simp] theorem State.setcc_pc (s : State) (r : Reg) :
    (s.setcc r).pc = s.pc := rfl
@[simp] theorem State.setcc_cond (s : State) (r : Reg) :
    (s.setcc r).cond = flagOf (s.reg r) := rfl
@[simp] theorem State.setcc_running (s : State) (r : Reg) :
    (s.setcc r).running = s.running := rfl
@[simp] theorem State.setcc_fault (s : State) (r : Reg) :
    (s.setcc r).fault = s.fault := rfl
@[simp] theorem State.setcc_mem (s : State) (r : Reg) :
    (s.setcc r).mem = s.mem := rfl
@[simp] theorem State.setcc_input (s : State) (r : Reg) :
    (s.setcc r).input = s.input := rfl
@[simp] theorem State.setcc_output (s : State) (r : Reg) :
    (s.setcc r).output = s.output := rfl
@[simp] theorem State.setcc_waiting (s : State) (r : Reg) :
    (s.setcc r).waiting = s.waiting := rfl

@[simp] theorem State.memWrite_regs (s : State) (a v : Word) :
    (s.memWrite a v).regs = s.regs := rfl
@[simp] theorem State.memWrite_pc (s : State) (a v : Word) :
    (s.memWrite a v).pc = s.pc := rfl
@[simp] theorem State.memWrite_cond (s : State) (a v : Word) :
    (s.memWrite a v).cond = s.cond := rfl
@[simp] theorem State.memWrite_running (s : State) (a v : Word) :
    (s.memWrite a v).running = s.running := rfl
@[simp] theorem State.memWrite_fault (s : State) (a v : Word) :
    (s.memWrite a v).fault = s.fault := rfl
@[simp] theorem State.memWrite_mem (s : State) (a v : Word) :
    (s.memWrite a v).mem = s.mem.write a v := rfl
@[simp] theorem State.memWrite_input (s : State) (a v : Word) :
    (s.memWrite a v).input = s.input := rfl
@[simp] theorem State.memWrite_output (s : State) (a v : Word) :
    (s.memWrite a v).output = s.output := rfl
@[simp] theorem State.memWrite_waiting (s : State) (a v : Word) :
    (s.memWrite a v).waiting = s.waiting := rfl

@[simp] theorem State.putBytes_regs (s : State) (bs : List Byte) :
    (s.putBytes bs).regs = s.regs := rfl
@[simp] theorem State.putBytes_pc (s : State) (bs : List Byte) :
    (s.putBytes bs).pc = s.pc := rfl
@[simp] theorem State.putBytes_cond (s : State) (bs : List Byte) :
    (s.putBytes bs).cond = s.cond := rfl
@[simp] theorem State.putBytes_running (s : State) (bs : List Byte) :
    (s.putBytes bs).running = s.running := rfl
@[simp] theorem State.putBytes_fault (s : State) (bs : List Byte) :
    (s.putBytes bs).fault = s.fault := rfl
@[simp] theorem State.putBytes_mem (s : State) (bs : List Byte) :
    (s.putBytes bs).mem = s.mem := rfl
@[simp] theorem State.putBytes_input (s : State) (bs : List Byte) :
    (s.putBytes bs).input = s.input := rfl
@[simp] theorem State.putBytes_output (s : State) (bs : List Byte) :
    (s.putBytes bs).output = s.output ++ bs := rfl
@[simp] theorem State.putBytes_waiting (s : State) (bs : List Byte) :
    (s.putBytes bs).waiting = s.waiting := rfl

@[simp] theorem State.stopRunning_regs (s : State) :
    (s.stopRunning).regs = s.regs := rfl
@[simp] theorem State.stopRunning_pc (s : State) :
    (s.stopRunning).pc = s.pc := rfl
@[simp] theorem State.stopRunning_cond (s : State) :
    (s.stopRunning).cond = s.cond := rfl
@[simp] theorem State.stopRunning_running (s : State) :
    (s.stopRunning).running = false := rfl
@[simp] theorem State.stopRunning_fault (s : State) :
    (s.stopRunning).fault = s.fault := rfl
@[simp] theorem State.stopRunning_mem (s : State) :
    (s.stopRunning).mem = s.mem := rfl
@[simp] theorem State.stopRunning_input (s : State) :
    (s.stopRunning).input = s.input := rfl
@[simp] theorem State.stopRunning_output (s : State) :
    (s.stopRunning).output = s.output := rfl
@[simp] theorem State.stopRunning_waiting (s : State) :
    (s.stopRunning).waiting = s.waiting := rfl

@[simp] theorem State.supplyByte_regs (s : State) (b : Byte) :
    (s.supplyByte b).regs = s.regs := rfl
@[simp] theorem State.supplyByte_pc (s : State) (b : Byte) :
    (s.supplyByte b).pc = s.pc := rfl
@[simp] theorem State.supplyByte_cond (s : State) (b : Byte) :
    (s.supplyByte b).cond = s.cond := rfl
@[simp] theorem State.supplyByte_running (s : State) (b : Byte) :
    (s.supplyByte b).running = s.running := rfl
@[simp] theorem State.supplyByte_fault (s : State) (b : Byte) :
    (s.supplyByte b).fault = s.fault := rfl
@[simp] theorem State.supplyByte_mem (s : State) (b : Byte) :
    (s.supplyByte b).mem = s.mem := rfl
@[simp] theorem State.supplyByte_input (s : State) (b : Byte) :
    (s.supplyByte b).input = s.input ++ [b] := rfl
@[simp] theorem State.supplyByte_output (s : State) (b : Byte) :
    (s.supplyByte b).output = s.output := rfl
@[simp] theorem State.supplyByte_waiting (s : State) (b : Byte) :
    (s.supplyByte b).waiting = s.waiting := rfl

@[simp] theorem State.raiseFatal_regs (s : State) (c : FatalCause) :
    (s.raiseFatal c).regs = s.regs := rfl
@[simp] theorem State.raiseFatal_pc (s : State) (c : FatalCause) :
    (s.raiseFatal c).pc = s.pc := rfl
@[simp] theorem State.raiseFatal_cond (s : State) (c : FatalCause) :
    (s.raiseFatal c).cond = s.cond := rfl
@[simp] theorem State.raiseFatal_running (s : State) (c : FatalCause) :
    (s.raiseFatal c).running = false := rfl
@[simp] theorem State.raiseFatal_fault (s : State) (c : FatalCause) :
    (s.raiseFatal c).fault = some c := rfl
@[simp] theorem State.raiseFatal_mem (s : State) (c : FatalCause) :
    (s.raiseFatal c).mem = s.mem := rfl
@[simp] theorem State.raiseFatal_input (s : State) (c : FatalCause) :
    (s.raiseFatal c).input = s.input := rfl
@[simp] theorem State.raiseFatal_output (s : State) (c : FatalCause) :
    (s.raiseFatal c).output = s.output := rfl
@[simp] theorem State.raiseFatal_waiting (s : State) (c : FatalCause) :
    (s.raiseFatal c).waiting = s.waiting := rfl

@[simp] theorem State.flush_eq (s : State) : s.flush = s := rfl

/-! ### Registers -/

theorem State.reg_def (s : State) (r : Reg) : s.reg r = s.regs[r] := rfl

/-- A register read depends on the register file alone. -/
theorem State.reg_congr {s t : State} (h : t.regs = s.regs) (r : Reg) : t.reg r = s.reg r := by
  simp [State.reg, h]

@[simp] theorem State.reg_setReg_same (s : State) (r : Reg) (v : Word) : (s.setReg r v).reg r = v := by
  simp [State.reg]

theorem State.reg_setReg_other (s : State) {r q : Reg} (h : q ≠ r) (v : Word) :
    (s.setReg r v).reg q = s.reg q := by
  have hv : (r : Nat) ≠ q := fun e => h (Fin.ext e.symm)
  simp [State.reg, Vector.getElem_set_ne, hv]

/-- Both cases of a register read after a register write. -/
theorem State.reg_setReg (s : State) (r q : Reg) (v : Word) :
    (s.setReg r v).reg q = if q = r then v else s.reg q := by
  by_cases h : q = r
  · subst h; simp
  · simp [h, State.reg_setReg_other]

@[simp] theorem State.reg_setPc (s : State) (v : Word) (r : Reg) :
    (s.setPc v).reg r = s.reg r := rfl
@[simp] theorem State.reg_setcc (s : State) (q : Reg) (r : Reg) :
    (s.setcc q).reg r = s.reg r := rfl
@[simp] theorem State.reg_memWrite (s : State) (a v : Word) (r : Reg) :
    (s.memWrite a v).reg r = s.reg r := rfl
@[simp] theorem State.reg_putBytes (s : State) (bs : List Byte) (r : Reg) :
    (s.putBytes bs).reg r = s.reg r := rfl
@[simp] theorem State.reg_stopRunning (s : State) (r : Reg) :
    (s.stopRunning).reg r = s.reg r := rfl
@[simp] theorem State.reg_supplyByte (s : State) (b : Byte) (r : Reg) :
    (s.supplyByte b).reg r = s.reg r := rfl
@[simp] theorem State.reg_raiseFatal (s : State) (c : FatalCause) (r : Reg) :
    (s.raiseFatal c).reg r = s.reg r := rfl

/-! ### The link and the result of a flag-setting instruction -/

@[simp] theorem State.link_pc (s : State) : s.link.pc = s.pc := rfl
@[simp] theorem State.link_cond (s : State) : s.link.cond = s.cond := rfl
@[simp] theorem State.link_running (s : State) : s.link.running = s.running := rfl
@[simp] theorem State.link_fault (s : State) : s.link.fault = s.fault := rfl
@[simp] theorem State.link_mem (s : State) : s.link.mem = s.mem := rfl
@[simp] theorem State.link_input (s : State) : s.link.input = s.input := rfl
@[simp] theorem State.link_output (s : State) : s.link.output = s.output := rfl
@[simp] theorem State.link_waiting (s : State) : s.link.waiting = s.waiting := rfl

@[simp] theorem State.reg_link_seven (s : State) : s.link.reg 7 = s.pc := by simp [State.link]

theorem State.reg_link_other (s : State) {r : Reg} (h : r ≠ 7) : s.link.reg r = s.reg r := by
  simp [State.link, State.reg_setReg_other, h]

@[simp] theorem State.writeResult_pc (s : State) (d : Reg) (v : Word) :
    (s.writeResult d v).pc = s.pc := rfl
@[simp] theorem State.writeResult_cond (s : State) (d : Reg) (v : Word) :
    (s.writeResult d v).cond = flagOf v := by
  simp [State.writeResult]
@[simp] theorem State.writeResult_running (s : State) (d : Reg) (v : Word) :
    (s.writeResult d v).running = s.running := rfl
@[simp] theorem State.writeResult_fault (s : State) (d : Reg) (v : Word) :
    (s.writeResult d v).fault = s.fault := rfl
@[simp] theorem State.writeResult_mem (s : State) (d : Reg) (v : Word) :
    (s.writeResult d v).mem = s.mem := rfl
@[simp] theorem State.writeResult_input (s : State) (d : Reg) (v : Word) :
    (s.writeResult d v).input = s.input := rfl
@[simp] theorem State.writeResult_output (s : State) (d : Reg) (v : Word) :
    (s.writeResult d v).output = s.output := rfl
@[simp] theorem State.writeResult_waiting (s : State) (d : Reg) (v : Word) :
    (s.writeResult d v).waiting = s.waiting := rfl

@[simp] theorem State.reg_writeResult_same (s : State) (d : Reg) (v : Word) :
    (s.writeResult d v).reg d = v := by simp [State.writeResult]

theorem State.reg_writeResult_other (s : State) {d r : Reg} (h : r ≠ d) (v : Word) :
    (s.writeResult d v).reg r = s.reg r := by
  simp [State.writeResult, State.reg_setReg_other, h]

end Sys2Proof.Machine
end

