-- ==== Sys2Proof/Laws/Ops.lean ====
section
/-! SUPPORT. One lemma for each shared operation that says once everything it can do; proofs cite
these and do not unfold the operation. -/

namespace Sys2Proof.Machine

/-! ### The keyboard poll and `MemRead` -/

theorem State.pollKeyboard_none {s : State} (h : s.input = []) :
    s.pollKeyboard = { s with mem := s.mem.write Config.kbsrAddr 0x0000#16 } := by
  simp [State.pollKeyboard, h]

theorem State.pollKeyboard_some {s : State} {b : Byte} {rest : List Byte} (h : s.input = b :: rest) :
    s.pollKeyboard =
      { s with
        mem := (s.mem.write Config.kbsrAddr 0x8000#16).write Config.kbdrAddr (zext8 b)
        input := rest } := by
  simp [State.pollKeyboard, h]

/-- A read anywhere but at KBSR gives the cell and changes nothing (20_memory.md R32). -/
theorem State.memRead_other (s : State) {a : Word} (h : a ≠ Config.kbsrAddr) :
    s.memRead a = (s.mem.read a, s) := by
  simp [State.memRead, h]

theorem kbsr_ne_kbdr : Config.kbsrAddr ≠ Config.kbdrAddr := by decide

/-- A read of KBSR that finds no byte. -/
theorem State.memRead_kbsr_none {s : State} (h : s.input = []) :
    s.memRead Config.kbsrAddr =
      (0x0000#16, { s with mem := s.mem.write Config.kbsrAddr 0x0000#16 }) := by
  simp [State.memRead, State.pollKeyboard_none h]

/-- A read of KBSR that finds a byte. -/
theorem State.memRead_kbsr_some {s : State} {b : Byte} {rest : List Byte} (h : s.input = b :: rest) :
    s.memRead Config.kbsrAddr =
      (0x8000#16,
       { s with
         mem := (s.mem.write Config.kbsrAddr 0x8000#16).write Config.kbdrAddr (zext8 b)
         input := rest }) := by
  simp [State.memRead, State.pollKeyboard_some h, Memory.read_write_other kbsr_ne_kbdr]

/-- Everything a `MemRead` can do, as three cases. -/
theorem State.memRead_cases (s : State) (a : Word) :
    (a ≠ Config.kbsrAddr ∧ s.memRead a = (s.mem.read a, s)) ∨
    (a = Config.kbsrAddr ∧ s.input = [] ∧
      s.memRead a = (0x0000#16, { s with mem := s.mem.write Config.kbsrAddr 0x0000#16 })) ∨
    (a = Config.kbsrAddr ∧ ∃ b rest, s.input = b :: rest ∧
      s.memRead a =
        (0x8000#16,
         { s with
           mem := (s.mem.write Config.kbsrAddr 0x8000#16).write Config.kbdrAddr (zext8 b)
           input := rest })) := by
  by_cases h : a = Config.kbsrAddr
  · subst h
    obtain hin | ⟨b, rest, hin⟩ : s.input = [] ∨ ∃ b rest, s.input = b :: rest := by
      cases s.input <;> simp
    · exact .inr (.inl ⟨rfl, hin, State.memRead_kbsr_none hin⟩)
    · exact .inr (.inr ⟨rfl, b, rest, hin, State.memRead_kbsr_some hin⟩)
  · exact .inl ⟨h, State.memRead_other s h⟩

@[simp] theorem State.memRead_regs (s : State) (a : Word) : (s.memRead a).2.regs = s.regs := by
  rcases State.memRead_cases s a with ⟨-, h⟩ | ⟨-, -, h⟩ | ⟨-, _, _, -, h⟩ <;> rw [h]

@[simp] theorem State.memRead_reg (s : State) (a : Word) (r : Reg) : (s.memRead a).2.reg r = s.reg r :=
  State.reg_congr (State.memRead_regs s a) r

@[simp] theorem State.memRead_pc (s : State) (a : Word) : (s.memRead a).2.pc = s.pc := by
  rcases State.memRead_cases s a with ⟨-, h⟩ | ⟨-, -, h⟩ | ⟨-, _, _, -, h⟩ <;> rw [h]

@[simp] theorem State.memRead_cond (s : State) (a : Word) : (s.memRead a).2.cond = s.cond := by
  rcases State.memRead_cases s a with ⟨-, h⟩ | ⟨-, -, h⟩ | ⟨-, _, _, -, h⟩ <;> rw [h]

@[simp] theorem State.memRead_running (s : State) (a : Word) :
    (s.memRead a).2.running = s.running := by
  rcases State.memRead_cases s a with ⟨-, h⟩ | ⟨-, -, h⟩ | ⟨-, _, _, -, h⟩ <;> rw [h]

@[simp] theorem State.memRead_fault (s : State) (a : Word) : (s.memRead a).2.fault = s.fault := by
  rcases State.memRead_cases s a with ⟨-, h⟩ | ⟨-, -, h⟩ | ⟨-, _, _, -, h⟩ <;> rw [h]

@[simp] theorem State.memRead_output (s : State) (a : Word) : (s.memRead a).2.output = s.output := by
  rcases State.memRead_cases s a with ⟨-, h⟩ | ⟨-, -, h⟩ | ⟨-, _, _, -, h⟩ <;> rw [h]

@[simp] theorem State.memRead_waiting (s : State) (a : Word) :
    (s.memRead a).2.waiting = s.waiting := by
  rcases State.memRead_cases s a with ⟨-, h⟩ | ⟨-, -, h⟩ | ⟨-, _, _, -, h⟩ <;> rw [h]

/-- A `MemRead` keeps the canonical form of memory. -/
theorem State.memRead_mem_wf {s : State} (h : s.mem.wf) (a : Word) : (s.memRead a).2.mem.wf := by
  rcases State.memRead_cases s a with ⟨-, e⟩ | ⟨-, -, e⟩ | ⟨-, _, _, -, e⟩ <;> rw [e]
  · exact h
  · exact Memory.write_wf h Config.kbsrAddr 0x0000#16
  · exact Memory.write_wf (Memory.write_wf h Config.kbsrAddr 0x8000#16) Config.kbdrAddr _

/-- A `MemRead` takes no byte or the first one. -/
theorem State.memRead_input (s : State) (a : Word) :
    (s.memRead a).2.input = s.input ∨ (s.memRead a).2.input = s.input.tail := by
  rcases State.memRead_cases s a with ⟨-, e⟩ | ⟨-, hn, e⟩ | ⟨-, _, _, hc, e⟩ <;> rw [e]
  · exact .inl rfl
  · exact .inl rfl
  · exact .inr (by rw [hc]; rfl)

/-- A `MemWrite` keeps the canonical form of memory. -/
theorem State.memWrite_mem_wf {s : State} (h : s.mem.wf) (a v : Word) : (s.memWrite a v).mem.wf :=
  Memory.write_wf h a v

/-! ### The fetch -/

@[simp] theorem State.fetch_pc (s : State) : s.fetch.2.pc = s.pc + 1 := rfl

@[simp] theorem State.fetch_reg (s : State) (r : Reg) : s.fetch.2.reg r = s.reg r :=
  State.memRead_reg s s.pc r

@[simp] theorem State.fetch_cond (s : State) : s.fetch.2.cond = s.cond := State.memRead_cond s s.pc

@[simp] theorem State.fetch_running (s : State) : s.fetch.2.running = s.running :=
  State.memRead_running s s.pc

@[simp] theorem State.fetch_fault (s : State) : s.fetch.2.fault = s.fault := State.memRead_fault s s.pc

@[simp] theorem State.fetch_output (s : State) : s.fetch.2.output = s.output :=
  State.memRead_output s s.pc

@[simp] theorem State.fetch_waiting (s : State) : s.fetch.2.waiting = s.waiting :=
  State.memRead_waiting s s.pc

/-- A fetch from anywhere but KBSR gives the cell and changes `pc` alone (40_fetch_dispatch.md R71). -/
theorem State.fetch_other {s : State} (h : s.pc ≠ Config.kbsrAddr) :
    s.fetch = (s.mem.read s.pc, s.setPc (s.pc + 1)) := by
  simp [State.fetch, State.memRead_other s h]

/-! ### Sign extension, flags -/

/-- The signed value of an extended field is the signed value of the field (R74). -/
theorem sext_toInt {n : Nat} (h : n ≤ 16) (v : BitVec n) : (sext v).toInt = v.toInt := by
  simp [sext, BitVec.toInt_signExtend_of_le h]

/-- The three values `setcc` can write (R75). -/
theorem flagOf_cases (v : Word) :
    flagOf v = Config.neg ∨ flagOf v = Config.zro ∨ flagOf v = Config.pos := by
  unfold flagOf
  split
  · exact .inl rfl
  · split
    · exact .inr (.inl rfl)
    · exact .inr (.inr rfl)

/-! ### The condition of the CORE -/

theorem State.condition_running {s : State} (hr : s.running = true) (hw : s.waiting = none) :
    s.condition = .running := by
  simp [State.condition, hr, hw]

theorem State.condition_blocked {s : State} {w : WaitPoint} (hr : s.running = true)
    (hw : s.waiting = some w) : s.condition = .blocked w := by
  simp [State.condition, hr, hw]

theorem State.condition_stopped {s : State} (hr : s.running = false) : s.condition = .stopped := by
  simp [State.condition, hr]

end Sys2Proof.Machine
end

