-- ==== Sys2Proof/Laws/PerInstr.lean ====
section
/-! SUPPORT. Statements made for every instruction, as the host's case split reads them: a family is a
`Statement` and one lemma per constructor of `Instr`. -/

namespace Sys2Proof.Laws

/-- The encoder puts an instruction in its own row of the opcode table: its fixed bits have the row's
values whatever the operands are (30_encoding.md R57). -/
def EncodesInRow.Statement (i : Instr) : Prop := encode i &&& i.rowMask = i.rowMatch

theorem EncodesInRow.br (nzp : BitVec 3) (off : BitVec 9) : EncodesInRow.Statement (.br nzp off) := by
  unfold EncodesInRow.Statement
  apply word_eq_of_bits
  intro k hk
  interval_cases k <;> simp [encode, Instr.rowMask, Instr.rowMatch, bitsAt_getLsbD, -BitVec.getLsbD_eq_getElem]

theorem EncodesInRow.addReg (dr sr1 sr2 : Reg) : EncodesInRow.Statement (.addReg dr sr1 sr2) := by
  unfold EncodesInRow.Statement
  apply word_eq_of_bits
  intro k hk
  interval_cases k <;> simp [encode, Instr.rowMask, Instr.rowMatch, bitsAt_getLsbD, -BitVec.getLsbD_eq_getElem]

theorem EncodesInRow.addImm (dr sr1 : Reg) (imm : BitVec 5) : EncodesInRow.Statement (.addImm dr sr1 imm) := by
  unfold EncodesInRow.Statement
  apply word_eq_of_bits
  intro k hk
  interval_cases k <;> simp [encode, Instr.rowMask, Instr.rowMatch, bitsAt_getLsbD, -BitVec.getLsbD_eq_getElem]

theorem EncodesInRow.ld (dr : Reg) (off : BitVec 9) : EncodesInRow.Statement (.ld dr off) := by
  unfold EncodesInRow.Statement
  apply word_eq_of_bits
  intro k hk
  interval_cases k <;> simp [encode, Instr.rowMask, Instr.rowMatch, bitsAt_getLsbD, -BitVec.getLsbD_eq_getElem]

theorem EncodesInRow.st (sr : Reg) (off : BitVec 9) : EncodesInRow.Statement (.st sr off) := by
  unfold EncodesInRow.Statement
  apply word_eq_of_bits
  intro k hk
  interval_cases k <;> simp [encode, Instr.rowMask, Instr.rowMatch, bitsAt_getLsbD, -BitVec.getLsbD_eq_getElem]

theorem EncodesInRow.jsr (off : BitVec 11) : EncodesInRow.Statement (.jsr off) := by
  unfold EncodesInRow.Statement
  apply word_eq_of_bits
  intro k hk
  interval_cases k <;> simp [encode, Instr.rowMask, Instr.rowMatch, bitsAt_getLsbD, -BitVec.getLsbD_eq_getElem]

theorem EncodesInRow.jsrr (base : Reg) : EncodesInRow.Statement (.jsrr base) := by
  unfold EncodesInRow.Statement
  apply word_eq_of_bits
  intro k hk
  interval_cases k <;> simp [encode, Instr.rowMask, Instr.rowMatch, bitsAt_getLsbD, -BitVec.getLsbD_eq_getElem]

theorem EncodesInRow.andReg (dr sr1 sr2 : Reg) : EncodesInRow.Statement (.andReg dr sr1 sr2) := by
  unfold EncodesInRow.Statement
  apply word_eq_of_bits
  intro k hk
  interval_cases k <;> simp [encode, Instr.rowMask, Instr.rowMatch, bitsAt_getLsbD, -BitVec.getLsbD_eq_getElem]

theorem EncodesInRow.andImm (dr sr1 : Reg) (imm : BitVec 5) : EncodesInRow.Statement (.andImm dr sr1 imm) := by
  unfold EncodesInRow.Statement
  apply word_eq_of_bits
  intro k hk
  interval_cases k <;> simp [encode, Instr.rowMask, Instr.rowMatch, bitsAt_getLsbD, -BitVec.getLsbD_eq_getElem]

theorem EncodesInRow.ldr (dr base : Reg) (off : BitVec 6) : EncodesInRow.Statement (.ldr dr base off) := by
  unfold EncodesInRow.Statement
  apply word_eq_of_bits
  intro k hk
  interval_cases k <;> simp [encode, Instr.rowMask, Instr.rowMatch, bitsAt_getLsbD, -BitVec.getLsbD_eq_getElem]

theorem EncodesInRow.str (sr base : Reg) (off : BitVec 6) : EncodesInRow.Statement (.str sr base off) := by
  unfold EncodesInRow.Statement
  apply word_eq_of_bits
  intro k hk
  interval_cases k <;> simp [encode, Instr.rowMask, Instr.rowMatch, bitsAt_getLsbD, -BitVec.getLsbD_eq_getElem]

theorem EncodesInRow.rti : EncodesInRow.Statement (.rti) := by
  unfold EncodesInRow.Statement
  apply word_eq_of_bits
  intro k hk
  interval_cases k <;> simp [encode, Instr.rowMask, Instr.rowMatch, bitsAt_getLsbD, -BitVec.getLsbD_eq_getElem]

theorem EncodesInRow.notReg (dr sr : Reg) : EncodesInRow.Statement (.notReg dr sr) := by
  unfold EncodesInRow.Statement
  apply word_eq_of_bits
  intro k hk
  interval_cases k <;> simp [encode, Instr.rowMask, Instr.rowMatch, bitsAt_getLsbD, -BitVec.getLsbD_eq_getElem]

theorem EncodesInRow.ldi (dr : Reg) (off : BitVec 9) : EncodesInRow.Statement (.ldi dr off) := by
  unfold EncodesInRow.Statement
  apply word_eq_of_bits
  intro k hk
  interval_cases k <;> simp [encode, Instr.rowMask, Instr.rowMatch, bitsAt_getLsbD, -BitVec.getLsbD_eq_getElem]

theorem EncodesInRow.sti (sr : Reg) (off : BitVec 9) : EncodesInRow.Statement (.sti sr off) := by
  unfold EncodesInRow.Statement
  apply word_eq_of_bits
  intro k hk
  interval_cases k <;> simp [encode, Instr.rowMask, Instr.rowMatch, bitsAt_getLsbD, -BitVec.getLsbD_eq_getElem]

theorem EncodesInRow.jmp (base : Reg) : EncodesInRow.Statement (.jmp base) := by
  unfold EncodesInRow.Statement
  apply word_eq_of_bits
  intro k hk
  interval_cases k <;> simp [encode, Instr.rowMask, Instr.rowMatch, bitsAt_getLsbD, -BitVec.getLsbD_eq_getElem]

theorem EncodesInRow.res : EncodesInRow.Statement (.res) := by
  unfold EncodesInRow.Statement
  apply word_eq_of_bits
  intro k hk
  interval_cases k <;> simp [encode, Instr.rowMask, Instr.rowMatch, bitsAt_getLsbD, -BitVec.getLsbD_eq_getElem]

theorem EncodesInRow.lea (dr : Reg) (off : BitVec 9) : EncodesInRow.Statement (.lea dr off) := by
  unfold EncodesInRow.Statement
  apply word_eq_of_bits
  intro k hk
  interval_cases k <;> simp [encode, Instr.rowMask, Instr.rowMatch, bitsAt_getLsbD, -BitVec.getLsbD_eq_getElem]

theorem EncodesInRow.trap (vect : BitVec 8) : EncodesInRow.Statement (.trap vect) := by
  unfold EncodesInRow.Statement
  apply word_eq_of_bits
  intro k hk
  interval_cases k <;> simp [encode, Instr.rowMask, Instr.rowMatch, bitsAt_getLsbD, -BitVec.getLsbD_eq_getElem]

theorem EncodesInRow.ret : EncodesInRow.Statement (.ret) := by
  unfold EncodesInRow.Statement
  apply word_eq_of_bits
  intro k hk
  interval_cases k <;> simp [encode, Instr.rowMask, Instr.rowMatch, bitsAt_getLsbD, -BitVec.getLsbD_eq_getElem]

theorem EncodesInRow.getc : EncodesInRow.Statement (.getc) := by
  unfold EncodesInRow.Statement
  apply word_eq_of_bits
  intro k hk
  interval_cases k <;> simp [encode, Instr.rowMask, Instr.rowMatch, bitsAt_getLsbD, -BitVec.getLsbD_eq_getElem]

theorem EncodesInRow.out : EncodesInRow.Statement (.out) := by
  unfold EncodesInRow.Statement
  apply word_eq_of_bits
  intro k hk
  interval_cases k <;> simp [encode, Instr.rowMask, Instr.rowMatch, bitsAt_getLsbD, -BitVec.getLsbD_eq_getElem]

theorem EncodesInRow.puts : EncodesInRow.Statement (.puts) := by
  unfold EncodesInRow.Statement
  apply word_eq_of_bits
  intro k hk
  interval_cases k <;> simp [encode, Instr.rowMask, Instr.rowMatch, bitsAt_getLsbD, -BitVec.getLsbD_eq_getElem]

theorem EncodesInRow.inChar : EncodesInRow.Statement (.inChar) := by
  unfold EncodesInRow.Statement
  apply word_eq_of_bits
  intro k hk
  interval_cases k <;> simp [encode, Instr.rowMask, Instr.rowMatch, bitsAt_getLsbD, -BitVec.getLsbD_eq_getElem]

theorem EncodesInRow.putsp : EncodesInRow.Statement (.putsp) := by
  unfold EncodesInRow.Statement
  apply word_eq_of_bits
  intro k hk
  interval_cases k <;> simp [encode, Instr.rowMask, Instr.rowMatch, bitsAt_getLsbD, -BitVec.getLsbD_eq_getElem]

theorem EncodesInRow.halt : EncodesInRow.Statement (.halt) := by
  unfold EncodesInRow.Statement
  apply word_eq_of_bits
  intro k hk
  interval_cases k <;> simp [encode, Instr.rowMask, Instr.rowMatch, bitsAt_getLsbD, -BitVec.getLsbD_eq_getElem]

theorem EncodesInRow.nop (off : BitVec 9) : EncodesInRow.Statement (.nop off) := by
  unfold EncodesInRow.Statement
  apply word_eq_of_bits
  intro k hk
  interval_cases k <;> simp [encode, Instr.rowMask, Instr.rowMatch, bitsAt_getLsbD, -BitVec.getLsbD_eq_getElem]

end Sys2Proof.Laws
end

