-- ==== Sys2Proof/Laws/Trap.lean ====
section
/-! SUPPORT. The wait point and the printing loop: everything each of them can do, said once. -/

namespace Sys2Proof.Machine

/-! ### The wait point -/

theorem State.awaitByte_none {s : State} (h : s.input = []) (w : WaitPoint) :
    s.awaitByte w = { s with waiting := some w } := by
  simp [State.awaitByte, h]

theorem State.awaitByte_getc {s : State} {b : Byte} {rest : List Byte} (h : s.input = b :: rest) :
    s.awaitByte .getc = State.setReg { s with input := rest, waiting := none } 0 (zext8 b) := by
  simp [State.awaitByte, State.takeByte, h]

theorem State.awaitByte_inChar {s : State} {b : Byte} {rest : List Byte} (h : s.input = b :: rest) :
    s.awaitByte .inChar =
      State.setReg (State.putBytes { s with input := rest, waiting := none } [b]) 0 (zext8 b) := by
  simp [State.awaitByte, State.takeByte, h]

@[simp] theorem State.awaitByte_pc (s : State) (w : WaitPoint) : (s.awaitByte w).pc = s.pc := by
  rcases h : s.input with _ | ⟨b, rest⟩
  · rw [State.awaitByte_none h]
  · cases w
    · rw [State.awaitByte_getc h]; rfl
    · rw [State.awaitByte_inChar h]; rfl

@[simp] theorem State.awaitByte_cond (s : State) (w : WaitPoint) : (s.awaitByte w).cond = s.cond := by
  rcases h : s.input with _ | ⟨b, rest⟩
  · rw [State.awaitByte_none h]
  · cases w
    · rw [State.awaitByte_getc h]; rfl
    · rw [State.awaitByte_inChar h]; rfl

@[simp] theorem State.awaitByte_running (s : State) (w : WaitPoint) :
    (s.awaitByte w).running = s.running := by
  rcases h : s.input with _ | ⟨b, rest⟩
  · rw [State.awaitByte_none h]
  · cases w
    · rw [State.awaitByte_getc h]; rfl
    · rw [State.awaitByte_inChar h]; rfl

@[simp] theorem State.awaitByte_fault (s : State) (w : WaitPoint) :
    (s.awaitByte w).fault = s.fault := by
  rcases h : s.input with _ | ⟨b, rest⟩
  · rw [State.awaitByte_none h]
  · cases w
    · rw [State.awaitByte_getc h]; rfl
    · rw [State.awaitByte_inChar h]; rfl

@[simp] theorem State.awaitByte_mem (s : State) (w : WaitPoint) : (s.awaitByte w).mem = s.mem := by
  rcases h : s.input with _ | ⟨b, rest⟩
  · rw [State.awaitByte_none h]
  · cases w
    · rw [State.awaitByte_getc h]; rfl
    · rw [State.awaitByte_inChar h]; rfl

/-- Only `R0` can change at a wait point. -/
theorem State.awaitByte_reg (s : State) (w : WaitPoint) {r : Reg} (hr : r ≠ 0) :
    (s.awaitByte w).reg r = s.reg r := by
  rcases h : s.input with _ | ⟨b, rest⟩
  · rw [State.awaitByte_none h]; rfl
  · cases w
    · rw [State.awaitByte_getc h, State.reg_setReg_other _ hr]; rfl
    · rw [State.awaitByte_inChar h, State.reg_setReg_other _ hr]; rfl

/-! ### The printing loop -/

theorem printFrom_zero (emit : Word → List Byte) (a : Word) (s : State) :
    printFrom emit 0 a s = .fault .stringNeverEnds := rfl

/-- A zero word ends the string (44_trap.md R115, R117). -/
theorem printFrom_end {emit : Word → List Byte} {fuel : Nat} {a : Word} {s : State}
    (h : (s.memRead a).1 = 0x0000#16) :
    printFrom emit (fuel + 1) a s = .next (s.memRead a).2 := by
  simp [printFrom, h]

/-- Any other word is emitted and the loop goes on at the next address. -/
theorem printFrom_more {emit : Word → List Byte} {fuel : Nat} {a : Word} {s : State}
    (h : (s.memRead a).1 ≠ 0x0000#16) :
    printFrom emit (fuel + 1) a s =
      printFrom emit fuel (a + 1) ((s.memRead a).2.putBytes (emit (s.memRead a).1)) := by
  simp [printFrom, h]

/-- What holds at the start, and is kept by every read and every byte put out, holds at the end. -/
theorem printFrom_keeps {P : State → Prop} (hread : ∀ s a, P s → P (s.memRead a).2)
    (hput : ∀ s bs, P s → P (s.putBytes bs)) {emit : Word → List Byte} {fuel : Nat} {a : Word}
    {s t : State} (hs : P s) (h : printFrom emit fuel a s = .next t) : P t := by
  induction fuel generalizing a s with
  | zero => cases h
  | succ k ih =>
    by_cases hz : (s.memRead a).1 = 0x0000#16
    · rw [printFrom_end hz] at h
      cases h
      exact hread s a hs
    · rw [printFrom_more hz] at h
      exact ih (hput _ _ (hread s a hs)) h

/-- The loop never refuses. -/
theorem printFrom_not_refused (emit : Word → List Byte) (fuel : Nat) (a : Word) (s : State)
    (r : Refusal) : printFrom emit fuel a s ≠ .refused r := by
  induction fuel generalizing a s with
  | zero => rw [printFrom_zero]; simp
  | succ k ih =>
    by_cases hz : (s.memRead a).1 = 0x0000#16
    · rw [printFrom_end hz]; simp
    · rw [printFrom_more hz]; exact ih _ _

/-- What PUTS and PUTSP leave unchanged. -/
theorem printFrom_frame {emit : Word → List Byte} {fuel : Nat} {a : Word} {s t : State}
    (h : printFrom emit fuel a s = .next t) :
    t.regs = s.regs ∧ t.pc = s.pc ∧ t.cond = s.cond ∧ runSame s t :=
  printFrom_keeps (P := fun u => u.regs = s.regs ∧ u.pc = s.pc ∧ u.cond = s.cond ∧ runSame s u)
    (fun u b hu => by simpa [runSame] using hu) (fun u bs hu => by simpa [runSame] using hu)
    (by simp [runSame]) h

/-- The loop keeps the canonical form of memory. -/
theorem printFrom_mem_wf {emit : Word → List Byte} {fuel : Nat} {a : Word} {s t : State}
    (hw : s.mem.wf) (h : printFrom emit fuel a s = .next t) : t.mem.wf :=
  printFrom_keeps (P := fun u => u.mem.wf) (fun _ b hu => State.memRead_mem_wf hu b)
    (fun _ _ hu => hu) hw h

/-- Cells from `a` up to and including KBSR, the poll there not counted. -/
def lapLeft (a : Word) : Nat := (Config.kbsrAddr - a).toNat

/-- The loop ends within the rest of this lap and one more lap for each byte pending: every lap polls
the keyboard, and the poll that finds no byte reads as the zero word (44_trap.md R120; log 14). -/
theorem printFrom_ends (emit : Word → List Byte) (fuel : Nat) (a : Word) (s : State)
    (hf : lapLeft a + 65536 * s.input.length < fuel) : ∃ t, printFrom emit fuel a s = .next t := by
  induction fuel generalizing a s with
  | zero => exact absurd hf (Nat.not_lt_zero _)
  | succ k ih =>
    by_cases hz : (s.memRead a).1 = 0x0000#16
    · exact ⟨_, printFrom_end hz⟩
    · rw [printFrom_more hz]
      apply ih
      rcases State.memRead_cases s a with ⟨ha, e⟩ | ⟨-, -, e⟩ | ⟨rfl, b, rest, hin, e⟩
      · have hstep : lapLeft (a + 1) + 1 = lapLeft a := by
          unfold lapLeft Config.kbsrAddr at *
          bv_omega
        rw [e]
        show lapLeft (a + 1) + 65536 * s.input.length < k
        omega
      · exact absurd (by rw [e]) hz
      · have hlap : lapLeft (Config.kbsrAddr + 1) = 65535 := by decide
        rw [e]
        show lapLeft (Config.kbsrAddr + 1) + 65536 * rest.length < k
        rw [hin, List.length_cons] at hf
        omega

/-- The cells PUTS and PUTSP allow for are enough. -/
theorem printFrom_printFuel_ends (emit : Word → List Byte) (a : Word) (s : State) :
    ∃ t, printFrom emit (printFuel s) a s = .next t := by
  apply printFrom_ends
  have h : lapLeft a < 65536 := (Config.kbsrAddr - a).isLt
  unfold printFuel
  omega

end Sys2Proof.Machine
end

