-- ==== Sys2Proof/Tests/Slice0.lean ====
section
/-! SUPPORT. Tests. The expected values are those of spec/95_test_vectors.md (section 2, section 3 and
the examples of section 1), and the words those of the formats of 30_encoding.md R52 and the examples of
the families' files. Then a witness for every statement that has hypotheses. -/

open Sys2Proof Sys2Proof.Machine

namespace Sys2Proof.Tests

/-- The reset state with these registers, cells, flag and pending bytes, and the word `w` at `pc`. -/
def start (pc w : Word) (regs : List (Reg × Word)) (cells : List (Word × Word)) (cond : Word)
    (inp : List Byte) : State :=
  { regs.foldl (fun s p => s.setReg p.1 p.2) State.reset with
    pc := pc, cond := cond, input := inp
    mem := (cells.foldl (fun (m : Memory) p => m.write p.1 p.2) ([] : Memory)).write pc w }

/-- The state after one step, or the reset state where there is none. -/
def after (s : State) : State :=
  match step s with
  | .next t => t
  | .fault _ => State.reset
  | .refused _ => State.reset

/-- The state after executing one instruction, or the reset state where there is none. -/
def executed (i : Instr) (s : State) : State :=
  match exec i s with
  | .next t => t
  | .fault _ => State.reset
  | .refused _ => State.reset

def answersNext (r : Result) : Bool :=
  match r with
  | .next _ => true
  | .fault _ => false
  | .refused _ => false

/-! ### WellFormed refuses an ill-formed term for each of its checks -/

theorem test_wellFormed_br : (Instr.br 0#3 0x1FF#9).wellFormed = false := by decide
theorem test_wellFormed_jmp : (Instr.jmp 7).wellFormed = false := by decide
theorem test_wellFormed_trap :
    (Instr.trap 0x20#8).wellFormed = false ∧ (Instr.trap 0x25#8).wellFormed = false := by decide
theorem test_wellFormed_edges :
    (Instr.trap 0x1F#8).wellFormed = true ∧ (Instr.trap 0x26#8).wellFormed = true ∧
      (Instr.br 1#3 0#9).wellFormed = true ∧ (Instr.jmp 6).wellFormed = true := by decide

/-! ### Decoding: one word for every constructor (R52, R57, R63) -/

theorem test_decode_br : decode 0x0BFE#16 = .br 5#3 0x1FE#9 := by decide
theorem test_decode_nop : decode 0x01FF#16 = .nop 0x1FF#9 := by decide
theorem test_decode_addReg : decode 0x1419#16 = .addReg 2 0 1 := by decide
theorem test_decode_addImm : decode 0x103F#16 = .addImm 0 0 0x1F#5 := by decide
theorem test_decode_andReg : decode 0x5642#16 = .andReg 3 1 2 := by decide
theorem test_decode_andImm : decode 0x5260#16 = .andImm 1 1 0#5 := by decide
theorem test_decode_not : decode 0x9200#16 = .notReg 1 0 ∧ decode 0x923F#16 = .notReg 1 0 := by decide
theorem test_decode_ld : decode 0x2FFC#16 = .ld 7 0x1FC#9 := by decide
theorem test_decode_ldi : decode 0xA202#16 = .ldi 1 2#9 := by decide
theorem test_decode_ldr : decode 0x647F#16 = .ldr 2 1 0x3F#6 := by decide
theorem test_decode_lea : decode 0xEBFF#16 = .lea 5 0x1FF#9 := by decide
theorem test_decode_st : decode 0x37FE#16 = .st 3 0x1FE#9 := by decide
theorem test_decode_sti : decode 0xB403#16 = .sti 2 3#9 := by decide
theorem test_decode_str : decode 0x71A0#16 = .str 0 6 0x20#6 := by decide
theorem test_decode_jmp : decode 0xCEBF#16 = .jmp 2 := by decide
theorem test_decode_ret : decode 0xC1C0#16 = .ret := by decide
theorem test_decode_jsr : decode 0x4C00#16 = .jsr 0x400#11 := by decide
theorem test_decode_jsrr : decode 0x46FF#16 = .jsrr 3 := by decide
theorem test_decode_trap : decode 0xF01F#16 = .trap 0x1F#8 ∧ decode 0xF026#16 = .trap 0x26#8 := by decide
theorem test_decode_services : decode 0xF020#16 = .getc ∧ decode 0xF021#16 = .out ∧
    decode 0xF022#16 = .puts ∧ decode 0xF023#16 = .inChar ∧ decode 0xF024#16 = .putsp ∧
    decode 0xFF25#16 = .halt := by decide
theorem test_decode_rti : decode 0x8FFF#16 = .rti := by decide
theorem test_decode_res : decode 0xD123#16 = .res := by decide

/-- R64: the canonical word of NOT has ones in its ignored bits, that of JMP zeros. -/
theorem test_encode_canonical : encode (.notReg 1 0) = 0x923F#16 ∧ encode (.jmp 2) = 0xC080#16 ∧
    encode .ret = 0xC1C0#16 ∧ encode .halt = 0xF025#16 := by decide

theorem test_decodeTableWord : decodeTableWord 16 0xF025 = some .halt ∧ decodeTableWord 24 0xF025 = none := by
  decide

/-- The very next step runs the word placed, from reset and from a stopped state at KBSR alike. -/
theorem test_withFetchWord :
    (after (State.reset.withFetchWord 16 0x1025)).reg 0 = 0x0005#16 ∧
    (after (State.withFetchWord { State.reset with pc := 0xFE00#16, running := false } 16 0x1025)).reg 0 =
      0x0005#16 := by decide

/-! ### Helpers (95_test_vectors.md section 3) -/

theorem test_sext5 : sext 0x0F#5 = 0x000F#16 ∧ sext 0x10#5 = 0xFFF0#16 ∧ sext 0x1F#5 = 0xFFFF#16 := by decide
theorem test_sext6 : sext 0x1F#6 = 0x001F#16 ∧ sext 0x20#6 = 0xFFE0#16 ∧ sext 0x3F#6 = 0xFFFF#16 := by decide
theorem test_sext9 : sext 0x0FF#9 = 0x00FF#16 ∧ sext 0x100#9 = 0xFF00#16 ∧ sext 0x1FE#9 = 0xFFFE#16 := by decide
theorem test_sext11 : sext 0x3FF#11 = 0x03FF#16 ∧ sext 0x400#11 = 0xFC00#16 ∧ sext 0x7FF#11 = 0xFFFF#16 := by
  decide
theorem test_flagOf : flagOf 0x0000#16 = 0x0002#16 ∧ flagOf 0x0001#16 = 0x0001#16 ∧
    flagOf 0x7FFF#16 = 0x0001#16 ∧ flagOf 0x8000#16 = 0x0004#16 ∧ flagOf 0xFFFF#16 = 0x0004#16 := by decide

/-- The prompt and the HALT text are the ASCII codes of the spec's strings (R116, R118). -/
theorem test_texts : promptBytes = "Enter a character: ".toList.map (fun c => BitVec.ofNat 8 c.toNat) ∧
    haltBytes = "HALT\n".toList.map (fun c => BitVec.ofNat 8 c.toNat) := by decide

/-- 70_reset_and_hazards.md R164: big-endian words after the origin word. -/
theorem test_image : imageOfBytes [0x30#8, 0x00#8, 0xF0#8, 0x25#8] =
    some { origin := 0x3000#16, words := [0xF025#16] } ∧
    Memory.loadImages [{ origin := 0x3000#16, words := [0x0001#16, 0x0002#16] },
      { origin := 0x3001#16, words := [0xF025#16] }] = [(0x3000, 0x0001#16), (0x3001, 0xF025#16)] ∧
    Memory.loadImages [{ origin := 0xFFFF#16, words := [0x0001#16, 0x0002#16] }] = [(0xFFFF, 0x0001#16)] := by
  decide

/-- R164: the whole words before an odd byte are loaded, and an odd byte beyond `0xFFFF` is not. -/
theorem test_image_odd :
    Memory.loadFile [] [0xFF#8, 0xFF#8, 0x12#8, 0x34#8, 0x56#8] = [(0xFFFF, 0x1234#16)] ∧
    imageOfBytes [0x30#8, 0x00#8, 0xF0#8, 0x25#8, 0x56#8] =
      some { origin := 0x3000#16, words := [0xF025#16], odd := some 0x56#8 } ∧
    Memory.loadFiles [[0x30#8, 0x00#8, 0xF0#8, 0x25#8], [], [0x30#8]] = [(0x3000, 0xF025#16)] := by decide

/-! ### One step (95_test_vectors.md section 2) -/

/-- B2 of section 1.3: `ADD R0,R0,#1` with 7FFF. -/
theorem test_addImm_overflow :
    let t := after (start 0x3000 0x1021 [(0, 0x7FFF)] [] Config.zro [])
    t.reg 0 = 0x8000#16 ∧ t.cond = Config.neg ∧ t.pc = 0x3001#16 := by decide

/-- B1 of section 1.3: `ADD R0,R0,#-1` with 0. -/
theorem test_addImm_minus_one :
    let t := after (start 0x3000 0x103F [(0, 0x0000)] [] Config.zro [])
    t.reg 0 = 0xFFFF#16 ∧ t.cond = Config.neg := by decide

theorem test_addReg_wraps :
    let t := after (start 0x3000 0x1401 [(0, 0xFFFF), (1, 0x0001)] [] Config.pos [])
    t.reg 2 = 0x0000#16 ∧ t.cond = Config.zro ∧ t.reg 0 = 0xFFFF#16 := by decide

theorem test_andReg :
    let t := after (start 0x3000 0x5642 [(1, 0xF0F0), (2, 0x0FF0)] [] Config.zro [])
    t.reg 3 = 0x00F0#16 ∧ t.cond = Config.pos := by decide

/-- R83: `AND R0,R0,#-1` keeps every bit, since the immediate is sign extended. -/
theorem test_andImm_all_ones :
    let t := after (start 0x3000 0x503F [(0, 0x8001)] [] Config.zro [])
    t.reg 0 = 0x8001#16 ∧ t.cond = Config.neg := by decide

/-- Section 2.6: NOT fetched at FFFF; `pc` wraps. -/
theorem test_not_at_top :
    let t := after (start 0xFFFF 0x923F [(0, 0x0001)] [] Config.zro [])
    t.reg 1 = 0xFFFE#16 ∧ t.cond = Config.neg ∧ t.pc = 0x0000#16 := by decide

/-- Section 1.3, B7: the same offset, read by LD and by LDI. -/
theorem test_ld :
    let t := after (start 0x3000 0x2001 [] [(0x3002, 0x3010), (0x3010, 0x00AA)] Config.zro [])
    t.reg 0 = 0x3010#16 ∧ t.cond = Config.pos := by decide

theorem test_ldi :
    let t := after (start 0x3000 0xA001 [] [(0x3002, 0x3010), (0x3010, 0x00AA)] Config.zro [])
    t.reg 0 = 0x00AA#16 ∧ t.cond = Config.pos := by decide

/-- Section 1.4, scenario 6: LDI through a pointer to KBSR, a key pending. -/
theorem test_ldi_polls :
    let t := after (start 0x3000 0xA003 [] [(0x3004, 0xFE00)] Config.zro [0x41])
    t.reg 0 = 0x8000#16 ∧ t.cond = Config.neg ∧ t.mem.read 0xFE00 = 0x8000#16 ∧
      t.mem.read 0xFE02 = 0x0041#16 ∧ t.input = [] := by decide

theorem test_ldr_base_is_destination :
    let t := after (start 0x3000 0x6240 [(1, 0x4000)] [(0x4000, 0x4001)] Config.zro [])
    t.reg 1 = 0x4001#16 ∧ t.cond = Config.pos := by decide

theorem test_ldr_wraps_below_zero :
    let t := after (start 0x3000 0x6460 [(1, 0x0010)] [(0xFFF0, 0x0000)] Config.pos [])
    t.reg 2 = 0x0000#16 ∧ t.cond = Config.zro := by decide

theorem test_lea_negative :
    let t := after (start 0x7F00 0xE0FF [] [] Config.zro [])
    t.reg 0 = 0x8000#16 ∧ t.cond = Config.neg ∧ t.pc = 0x7F01#16 := by decide

theorem test_st :
    let t := after (start 0x3005 0x37FE [(3, 0xBEEF)] [] Config.zro [])
    t.mem.read 0x3004 = 0xBEEF#16 ∧ t.cond = Config.zro ∧ t.pc = 0x3006#16 := by decide

/-- A store to KBSR is a plain store: no poll, no byte taken. -/
theorem test_st_to_kbsr :
    let t := after (start 0xFDFF 0x3000 [(0, 0x1234)] [] Config.zro [0x41])
    t.mem.read 0xFE00 = 0x1234#16 ∧ t.input = [0x41#8] ∧ t.pc = 0xFE00#16 := by decide

theorem test_sti_to_kbsr :
    let t := after (start 0x3000 0xB001 [(0, 0x1234)] [(0x3002, 0xFE00)] Config.zro [0x41])
    t.mem.read 0xFE00 = 0x1234#16 ∧ t.mem.read 0xFE02 = 0x0000#16 ∧ t.input = [0x41#8] := by decide

theorem test_str_wraps_below_zero :
    let t := after (start 0x3000 0x71A0 [(0, 0x00FF), (6, 0x0000)] [] Config.zro [])
    t.mem.read 0xFFE0 = 0x00FF#16 := by decide

theorem test_br_taken : (after (start 0x3000 0x0403 [] [] Config.zro [])).pc = 0x3004#16 ∧
    (after (start 0x3000 0x0900 [] [] Config.neg [])).pc = 0x2F01#16 := by decide

theorem test_br_not_taken : (after (start 0x3000 0x0403 [] [] Config.pos [])).pc = 0x3001#16 ∧
    (after (start 0x3000 0x0BFE [] [] Config.zro [])).pc = 0x3001#16 := by decide

theorem test_nop : after (start 0x3000 0x01FF [] [] Config.neg []) =
    (start 0x3000 0x01FF [] [] Config.neg []).setPc 0x3001 := by decide

theorem test_jmp :
    let t := after (start 0x3000 0xC080 [(2, 0x4000), (7, 0x1111)] [] Config.zro [])
    t.pc = 0x4000#16 ∧ t.reg 7 = 0x1111#16 := by decide

theorem test_ret : (after (start 0x3000 0xC1C0 [(7, 0x3005)] [] Config.zro [])).pc = 0x3005#16 := by decide

theorem test_jsr_extremes :
    (after (start 0x3000 0x4C00 [] [] Config.zro [])).pc = 0x2C01#16 ∧
    (after (start 0x3000 0x4BFF [] [] Config.zro [])).pc = 0x3400#16 := by decide

theorem test_jsr_at_top :
    let t := after (start 0xFFFF 0x4800 [] [] Config.zro [])
    t.reg 7 = 0x0000#16 ∧ t.pc = 0x0000#16 ∧ t.cond = Config.zro := by decide

theorem test_jsrr :
    let t := after (start 0x3000 0x40C0 [(3, 0x5000)] [] Config.zro [])
    t.reg 7 = 0x3001#16 ∧ t.pc = 0x5000#16 := by decide

/-- Decision D6. -/
theorem test_jsrr_r7 :
    let t := after (start 0x3000 0x41C0 [(7, 0x5000)] [] Config.zro [])
    t.reg 7 = 0x3001#16 ∧ t.pc = 0x3001#16 := by decide

theorem test_getc :
    let t := after (start 0x3000 0xF020 [] [] Config.pos [0xFF])
    t.reg 0 = 0x00FF#16 ∧ t.input = [] ∧ t.cond = Config.pos ∧ t.reg 7 = 0x3001#16 ∧ t.output = [] := by
  decide

theorem test_getc_blocks :
    let t := after (start 0x3000 0xF020 [] [] Config.zro [])
    t.condition = .blocked .getc ∧ t.reg 7 = 0x3001#16 ∧ t.pc = 0x3001#16 ∧ after t = t ∧
      (after (t.supplyByte 0x41)).reg 0 = 0x0041#16 := by decide

/-- Decision D8: under `zero` a blocked GETC gets a zero byte, under `hang` it stays blocked. -/
theorem test_eof :
    let t := after (start 0x3000 0xF020 [(0, 0x1111)] [] Config.zro [])
    (after (t.endOfInput .zero)).reg 0 = 0x0000#16 ∧ (after (t.endOfInput .zero)).condition = .running ∧
      after (t.endOfInput .hang) = t := by decide

theorem test_out :
    let t := after (start 0x3000 0xF021 [(0, 0x1248)] [] Config.zro [])
    t.output = [0x48#8] ∧ t.reg 0 = 0x1248#16 ∧ t.reg 7 = 0x3001#16 := by decide

theorem test_puts_zero_low_byte :
    let t := after (start 0x3000 0xF022 [(0, 0x4000)] [(0x4000, 0x0100), (0x4001, 0x1241)] Config.zro [])
    t.output = [0x00#8, 0x41#8] ∧ t.reg 0 = 0x4000#16 ∧ t.reg 7 = 0x3001#16 := by decide

/-- PUTS across KBSR with a key pending (decision D9). -/
theorem test_puts_across_kbsr :
    let t := after (start 0x3000 0xF022 [(0, 0xFDFF)] [(0xFDFF, 0x0041)] Config.zro [0x6B])
    t.output = [0x41#8, 0x00#8] ∧ t.mem.read 0xFE00 = 0x8000#16 ∧ t.mem.read 0xFE02 = 0x006B#16 ∧
      t.input = [] := by decide

theorem test_in :
    let t := after (start 0x3000 0xF023 [] [] Config.zro [0x7A])
    t.output = promptBytes ++ [0x7A#8] ∧ t.reg 0 = 0x007A#16 ∧ t.reg 7 = 0x3001#16 ∧ t.input = [] := by
  decide

theorem test_in_blocks :
    let t := after (start 0x3000 0xF023 [(0, 0x1111)] [] Config.zro [])
    t.output = promptBytes ∧ t.condition = .blocked .inChar ∧ t.reg 0 = 0x1111#16 := by decide

theorem test_putsp :
    let t := after (start 0x3000 0xF024 [(0, 0x4000)] [(0x4000, 0x6948), (0x4001, 0x0021)] Config.zro [])
    t.output = [0x48#8, 0x69#8, 0x21#8] ∧ t.reg 7 = 0x3001#16 := by decide

theorem test_putsp_low_zero :
    let t := after (start 0x3000 0xF024 [(0, 0x4000)] [(0x4000, 0x4100), (0x4001, 0x0042)] Config.zro [])
    t.output = [0x00#8, 0x41#8, 0x42#8] := by decide

theorem test_halt :
    let t := after (start 0x3000 0xFF25 [] [] Config.neg [])
    t.output = [0x48#8, 0x41#8, 0x4C#8, 0x54#8, 0x0A#8] ∧ t.condition = .stopped ∧ t.fault = none ∧
      t.cond = Config.neg ∧ t.reg 7 = 0x3001#16 := by decide

theorem test_trap_undefined :
    let s := start 0x3000 0xF026 [(7, 0xAAAA)] [] Config.zro []
    after s = (s.setPc 0x3001).setReg 7 0x3001 := by decide

theorem test_rti :
    let s := start 0x3000 0x8000 [(7, 0xAAAA)] [] Config.zro [0x41]
    after s = { s with pc := 0x3001#16, running := false, fault := some .rti } := by decide

theorem test_res :
    let s := start 0x3000 0xD123 [(7, 0xAAAA)] [] Config.zro [0x41]
    after s = { s with pc := 0x3001#16, running := false, fault := some .res } := by decide

/-- Section 2.6: the fetch at KBSR with a key pending executes RTI. -/
theorem test_fetch_at_kbsr :
    let t := after (start 0xFE00 0x1234 [] [] Config.zro [0x41])
    t.mem.read 0xFE00 = 0x8000#16 ∧ t.mem.read 0xFE02 = 0x0041#16 ∧ t.input = [] ∧ t.pc = 0xFE01#16 ∧
      t.running = false ∧ t.fault = some .rti := by decide

/-- Section 2.6: the fetch at KBSR with no key executes the zero word. -/
theorem test_fetch_at_kbsr_no_key :
    let t := after (start 0xFE00 0x1234 [] [] Config.zro [])
    t.mem.read 0xFE00 = 0x0000#16 ∧ t.pc = 0xFE01#16 ∧ t.running = true := by decide

/-! ### The canonical form of memory -/

theorem test_reset_memory_wf : State.reset.mem.wf := by decide

/-- Writing what an unlisted cell reads as takes the entry away again. -/
theorem test_write_canonical :
    Memory.write [(5, 1#16), (9, 2#16)] 7 3 = [(5, 1#16), (7, 3#16), (9, 2#16)] ∧
    Memory.write [(5, 1#16), (7, 3#16)] 7 0 = [(5, 1#16)] ∧
    Memory.write [(5, 1#16)] 5 4 = [(5, 4#16)] := by decide

/-! ### Witnesses: every hypothesis of every statement is met somewhere -/

theorem witness_reset_inv : State.reset.Inv := by constructor <;> decide

/-- A blocked state that meets the invariant: `R7 = pc`. -/
theorem witness_blocked_inv :
    State.Inv { State.reset with waiting := some .inChar, pc := 0x0000#16 } := by constructor <;> decide

/-- A state after an abort that meets the invariant. -/
theorem witness_aborted_inv :
    State.Inv { State.reset with running := false, fault := some .res, mem := [(0xFFFF, 1#16)] } := by
  constructor <;> decide

theorem witness_ResetStatesSatisfyInvariant : Memory.wf [] ∧ Memory.wf [(0, 1#16), (0xFFFF, 0xFFFF#16)] := by
  decide

/-- No odd byte, and one: the last cell before and the first after the free one. -/
theorem witness_FileLoadsItsWholeWords :
    (([] : List Byte).length ≤ 1 ∧ (([] : List Byte) = [] ∨ (0xFFFF#16).toNat ≠ (0xFFFF#16).toNat + 0)) ∧
    ([0x56#8].length ≤ 1 ∧ ([0x56#8] = [] ∨ (0x3000#16).toNat ≠ (0x3000#16).toNat + [0xF025#16].length)) ∧
    ([0x56#8].length ≤ 1 ∧ ([0x56#8] = [] ∨ (0x3002#16).toNat ≠ (0x3000#16).toNat + [0xF025#16].length)) ∧
    ([] : List Byte).length < 2 ∧ [0x30#8].length < 2 := by decide

theorem witness_StepKeepsInvariant :
    (∃ t, State.reset.Inv ∧ step State.reset = .next t) ∧
    ∃ t, State.Inv { State.reset with waiting := some .inChar, pc := 0x0000#16 } ∧
      step { State.reset with waiting := some .inChar, pc := 0x0000#16 } = .next t :=
  ⟨⟨_, witness_reset_inv, rfl⟩, ⟨_, witness_blocked_inv, rfl⟩⟩

theorem witness_RunsKeepInvariant :
    (∀ e ∈ [Event.core, .supply 0x41#8, .eof .zero, .eof .hang, .reset [(0xFFFF, 1#16)], .core], e.wf) ∧
    State.reset.Inv ∧
    ∃ t, runEvents [.core, .supply 0x41#8, .eof .zero, .eof .hang, .reset [(0xFFFF, 1#16)], .core]
      State.reset = .next t := by
  refine ⟨?_, witness_reset_inv, _, rfl⟩
  simp only [List.forall_mem_cons, Event.wf]
  exact ⟨trivial, trivial, trivial, trivial, by decide, trivial, by simp⟩

theorem witness_DecodeEncodeRoundTrip : (Instr.br 7#3 0x100#9).wellFormed = true ∧
    (Instr.jmp 0).wellFormed = true ∧ (Instr.trap 0x26#8).wellFormed = true ∧
    (Instr.addImm 7 7 0x1F#5).wellFormed = true := by decide

theorem witness_StepRunsDecodedInstruction : State.reset.running = true ∧ State.reset.waiting = none ∧
    State.reset.pc ≠ 0xFE00#16 ∧ decode (State.reset.mem.read State.reset.pc) = .nop 0#9 ∧
    (start 0xFDFF 0xF025 [] [] Config.zro []).pc ≠ 0xFE00#16 ∧
    decode ((start 0xFDFF 0xF025 [] [] Config.zro []).mem.read 0xFDFF#16) = .halt := by decide

theorem witness_FetchAtKbsrPolls :
    let s := start 0xFE00 0x1234 [] [] Config.zro []
    let s' := start 0xFE00 0x1234 [] [] Config.zro [0x41]
    (s.running = true ∧ s.waiting = none ∧ s.pc = 0xFE00#16 ∧ s.input = []) ∧
    (s'.running = true ∧ s'.waiting = none ∧ s'.pc = 0xFE00#16 ∧ s'.input ≠ []) := by decide

/-- A stopped CORE and a list of every kind of event but a reset. -/
theorem witness_StoppedCoreHoldsItsState : State.running { State.reset with running := false } = false ∧
    ∀ img, Event.reset img ∉ [Event.core, .supply 0x41#8, .eof .zero, .eof .hang, .core] :=
  ⟨rfl, by simp⟩

/-- The last clause of the reset's statement: a state that is not the reset state, channels empty. -/
theorem witness_ResetEstablishesEveryElement :
    let s := start 0x1234 0xF025 [(7, 0xAAAA)] [] Config.neg []
    s.input = [] ∧ s.output = [] ∧ s ≠ State.reset := by decide

theorem witness_BlockedCoreWaitsAndResumes :
    let s := { State.reset with waiting := some .getc }
    let s' := { State.reset with waiting := some .inChar, input := [0x41#8, 0x42#8] }
    (s.running = true ∧ s.waiting = some .getc ∧ s.input = []) ∧
    (s'.running = true ∧ s'.waiting = some .inChar ∧ s'.input = 0x41#8 :: [0x42#8]) := by decide

theorem witness_ReadElsewhereChangesNothing : (0x0000#16 : Word) ≠ 0xFE00#16 ∧
    (0xFDFF#16 : Word) ≠ 0xFE00#16 ∧ (0xFE01#16 : Word) ≠ 0xFE00#16 ∧ (0xFE02#16 : Word) ≠ 0xFE00#16 ∧
    (0xFFFF#16 : Word) ≠ 0xFE00#16 := by decide

theorem witness_PollOverwritesWhatStoodThere :
    (start 0x3000 0 [] [] Config.zro [0x41, 0x42]).input = 0x41#8 :: 0x42#8 :: [] ∧
    (start 0x3000 0 [] [] Config.zro [0x41, 0x42, 0x43]).input = 0x41#8 :: 0x42#8 :: [0x43#8] := by decide

theorem witness_MemoryHoldsEveryImageOnce :
    (Memory.wf [] ∧ ∀ a, Memory.read [] a = (fun _ : Word => 0x0000#16) a) ∧
    (Memory.wf [(0xFFFF, 1#16)] ∧
      ∀ a, Memory.read [(0xFFFF, 1#16)] a = (fun a : Word => if 0xFFFF = a.toNat then 1#16 else 0#16) a) :=
  ⟨⟨by decide, fun _ => rfl⟩, ⟨by decide, fun _ => rfl⟩⟩

theorem witness_StoreIsSeenByNextFetch :
    let s := start 0xFFFF 0x3200 [(1, 0xF025)] [] Config.zro []
    let s' := start 0xFDFE 0x3200 [(1, 0xF025)] [] Config.zro []
    (s.running = true ∧ s.waiting = none ∧ s.pc ≠ 0xFE00#16 ∧ s.pc + 1 ≠ 0xFE00#16 ∧
      decode (s.mem.read s.pc) = .st 1 0#9) ∧
    (s'.running = true ∧ s'.waiting = none ∧ s'.pc ≠ 0xFE00#16 ∧ s'.pc + 1 ≠ 0xFE00#16 ∧
      decode (s'.mem.read s'.pc) = .st 1 0#9) := by decide

theorem witness_StoreThenLoadReturnsStored :
    (State.reset.reg 0 + (0x3F#6).signExtend 16 ≠ 0xFE00#16) ∧
    ((State.reset.setReg 3 0xFE00).reg 3 + (2#6).signExtend 16 ≠ 0xFE00#16) := by decide

theorem witness_KbsrThenKbdrGivesTheByte :
    let s := start 0x3000 0 [(2, 0xFE00)] [] Config.zro [0xFF]
    s.reg 2 = 0xFE00#16 ∧ (0 : Reg) ≠ 2 ∧ s.input = 0xFF#8 :: [] := by decide

theorem witness_SextIsTwosComplement : 1 ≤ 1 ∧ 1 ≤ 16 ∧ (0xFFFF#16 : Word).toInt = (1#1).toInt ∧
    1 ≤ 16 ∧ 16 ≤ 16 ∧ (0x8000#16 : Word).toInt = (0x8000#16).toInt := by decide

theorem witness_SetccClassifiesBySign : (0x8000#16 : Word).toInt < 0 ∧ (0xFFFF#16 : Word).toInt < 0 ∧
    (0x0000#16 : Word).toInt = 0 ∧ 0 < (0x0001#16 : Word).toInt ∧ 0 < (0x7FFF#16 : Word).toInt := by decide

/-- The three cases of `readGives`, which the loads' statements go through. -/
theorem witness_readGives :
    let s := start 0x3000 0 [] [] Config.zro []
    let s' := start 0x3000 0 [] [] Config.zro [0x41, 0x42]
    (0xFE02#16 : Word) ≠ 0xFE00#16 ∧ s.input = [] ∧ s'.input = 0x41#8 :: [0x42#8] := by decide

theorem witness_JumpGoesToBaseRegister :
    (Instr.jmp 7 = .jmp 7 ∨ (Instr.jmp 7 = .ret ∧ (7 : Reg) = 7)) ∧
    (Instr.ret = .jmp 7 ∨ (Instr.ret = .ret ∧ (7 : Reg) = 7)) := by decide

theorem witness_JsrrLinksThenReadsBase : (6 : Reg) ≠ 7 ∧ (7 : Reg) = 7 := by decide

theorem witness_UndefinedVectorOnlyLinks : ((0x00#8).toNat < 0x20 ∨ 0x25 < (0x00#8).toNat) ∧
    ((0x1F#8).toNat < 0x20 ∨ 0x25 < (0x1F#8).toNat) ∧ ((0x26#8).toNat < 0x20 ∨ 0x25 < (0x26#8).toNat) ∧
    ((0xFF#8).toNat < 0x20 ∨ 0x25 < (0xFF#8).toNat) := by decide

theorem witness_GetcTakesOneByteOrWaits :
    (Instr.trap 0x20#8 = .getc ∨ Instr.trap 0x20#8 = .trap 0x20#8) ∧ State.reset.input = [] ∧
    (start 0x3000 0 [] [] Config.zro [0xFF]).input = 0xFF#8 :: [] := by decide

theorem witness_OutEmitsLowByte : Instr.out = .out ∨ Instr.out = .trap 0x21#8 := by decide

/-- A string of two words over the wrap, one with a zero low byte, and the empty string. -/
theorem witness_PutsPrintsOneBytePerCell :
    (Instr.puts = .puts ∨ Instr.puts = .trap 0x22#8) ∧
    (let s := start 0x3000 0 [(0, 0xFFFF)] [(0xFFFF, 0x0100), (0x0000, 0x1241)] Config.zro []
     stringAt s.mem (s.reg 0) [0x0100#16, 0x1241#16]) ∧
    stringAt State.reset.mem (State.reset.reg 0) [] := by
  simp only [stringAt]; decide

theorem witness_PutspPrintsTwoBytesPerCell :
    (Instr.putsp = .putsp ∨ Instr.putsp = .trap 0x24#8) ∧
    (let s := start 0x3000 0 [(0, 0x4000)] [(0x4000, 0x4100), (0x4001, 0x0042)] Config.zro []
     stringAt s.mem (s.reg 0) [0x4100#16, 0x0042#16]) := by
  simp only [stringAt]; decide

/-- A zero cell, a non-zero cell, and KBSR with and without a byte. -/
theorem witness_PrintingReadsEachCellThroughMemRead :
    ((Instr.puts = .puts ∧ putsBytes = putsBytes) ∨ (Instr.puts = .putsp ∧ putsBytes = putspBytes)) ∧
    (State.reset.memRead (State.reset.reg 0)).1 = 0x0000#16 ∧
    (let s := start 0x3000 0 [(0, 0xFE00)] [(0xFE00, 0x1111)] Config.zro []
     (s.memRead (s.reg 0)).1 = 0x0000#16) ∧
    (let s := start 0x3000 0 [(0, 0xFE00)] [] Config.zro [0x41]
     (s.memRead (s.reg 0)).1 ≠ 0x0000#16) :=
  ⟨.inl ⟨rfl, rfl⟩, by decide, by decide, by decide⟩

theorem witness_InPromptsThenTakesAndEchoes :
    (Instr.inChar = .inChar ∨ Instr.inChar = .trap 0x23#8) ∧ State.reset.input = [] ∧
    (start 0x3000 0 [] [] Config.zro [0x7A]).input = 0x7A#8 :: [] := by decide

theorem witness_HaltPrintsAndStops : Instr.halt = .halt ∨ Instr.halt = .trap 0x25#8 := by decide

theorem witness_FatalOpcodesAbortPrecisely :
    ((Instr.rti = .rti ∧ FatalCause.rti = .rti) ∨ (Instr.rti = .res ∧ FatalCause.rti = .res)) ∧
    ((Instr.res = .rti ∧ FatalCause.res = .rti) ∨ (Instr.res = .res ∧ FatalCause.res = .res)) := by decide

theorem witness_CondWrittenOnlyBySeven :
    (exec (.lea 7 0x1FF#9) State.reset = .next (executed (.lea 7 0x1FF#9) State.reset) ∧
      (Instr.lea 7 0x1FF#9).setsCond = true) ∧
    (exec (.trap 0x25#8) State.reset = .next (executed (.trap 0x25#8) State.reset) ∧
      (Instr.trap 0x25#8).setsCond = false) := ⟨⟨rfl, rfl⟩, ⟨rfl, rfl⟩⟩

theorem witness_RegistersWrittenOnlyByTheirRows :
    exec .inChar State.reset = .next (executed .inChar State.reset) := rfl

theorem witness_PcWrittenOnlyByControlTransfers :
    exec .halt State.reset = .next (executed .halt State.reset) ∧ Instr.halt.writesPc = false := ⟨rfl, rfl⟩

theorem witness_CellsChangedOnlyByStoresAndPolls :
    let s := start 0x3000 0 [(0, 0xFE00)] [] Config.zro [0x41]
    exec (.ldr 1 0 0#6) s = .next (executed (.ldr 1 0 0#6) s) ∧ (Instr.ldr 1 0 0#6).stores = false :=
  ⟨rfl, rfl⟩

theorem witness_RunEndsOnlyByHaltAndAbort :
    (exec .halt State.reset = .next (executed .halt State.reset) ∧ Instr.halt.stopsCore = true ∧
      Instr.halt ≠ .rti ∧ Instr.halt ≠ .res) ∧
    (exec .rti State.reset = .next (executed .rti State.reset)) ∧
    (exec .res State.reset = .next (executed .res State.reset)) ∧
    (exec (.trap 0x26#8) State.reset = .next (executed (.trap 0x26#8) State.reset) ∧
      (Instr.trap 0x26#8).stopsCore = false) :=
  ⟨⟨rfl, rfl, by decide, by decide⟩, rfl, rfl, ⟨rfl, rfl⟩⟩

/-- A step that takes a byte and emits it: IN. -/
theorem witness_ChannelsMoveInOrder :
    let s := start 0x3000 0xF023 [] [] Config.zro [0x7A]
    step s = .next (after s) := rfl

theorem witness_OutputIsNeverReadBack :
    let s := start 0x3000 0xF021 [(0, 0x1248)] [] Config.zro []
    step s = .next (after s) := rfl

theorem witness_InputUnseenWithoutReadOrWait :
    let s := start 0x3000 0 [(0, 0x1248)] [] Config.zro [0x7A]
    exec .out s = .next (executed .out s) ∧ Instr.out.mayTakeByte = false := ⟨rfl, rfl⟩

end Sys2Proof.Tests
end

section
/-! A content of the 65 536 cells has exactly one canonical form (10_state.md R18). -/

namespace Sys2Proof.Machine

/-- The first entry of a canonical memory is inside the address space and is not the unlisted value. -/
theorem Memory.wf_head {b : Nat} {v : Word} {m : Memory} (h : Memory.wf ((b, v) :: m)) :
    b < 65536 ∧ v ≠ Memory.unlisted := h.2 (b, v) List.mem_cons_self

/-- A canonical memory lists nothing below its first entry. -/
theorem Memory.read_below_head {b : Nat} {v : Word} {m : Memory} (h : Memory.wf ((b, v) :: m))
    {a : Word} (ha : a.toNat < b) : Memory.read ((b, v) :: m) a = Memory.unlisted := by
  refine Memory.read_of_lt_all fun c hc => ?_
  obtain rfl | hc := List.mem_cons.mp hc
  · exact ha
  · exact ha.trans ((List.pairwise_cons.mp h.1).1 c hc)

/-- The tail of a canonical memory reads the first entry's address as unlisted. -/
theorem Memory.read_tail_at_head {b : Nat} {v : Word} {m : Memory} (h : Memory.wf ((b, v) :: m))
    {a : Word} (ha : a.toNat = b) : m.read a = Memory.unlisted :=
  Memory.read_of_lt_all fun c hc => ha ▸ (List.pairwise_cons.mp h.1).1 c hc

/-- Canonical memories that read alike do not differ in where their first entries stand. -/
theorem Memory.head_not_lt {b c : Nat} {v w : Word} {m n : Memory} (hm : Memory.wf ((b, v) :: m))
    (hn : Memory.wf ((c, w) :: n))
    (h : ∀ a, Memory.read ((b, v) :: m) a = Memory.read ((c, w) :: n) a) : ¬ b < c := by
  intro hlt
  obtain ⟨hb, hv⟩ := Memory.wf_head hm
  have hbelow := Memory.read_below_head hn (a := BitVec.ofNat 16 b) (by simp; omega)
  exact hv (by rw [← hbelow, ← h, Memory.read_head hb])

/-- Two memories in canonical form that read alike are the same list. -/
theorem Memory.eq_of_read_eq {m n : Memory} (hm : m.wf) (hn : n.wf)
    (h : ∀ a, m.read a = n.read a) : m = n := by
  induction m generalizing n with
  | nil =>
    cases n with
    | nil => rfl
    | cons d n =>
      obtain ⟨hc, hw⟩ := Memory.wf_head hn
      exact absurd ((Memory.read_head hc).symm.trans (h _).symm) hw
  | cons d m ih =>
    obtain ⟨b, v⟩ := d
    obtain ⟨hb, hv⟩ := Memory.wf_head hm
    cases n with
    | nil => exact absurd ((Memory.read_head hb).symm.trans (h _)) hv
    | cons d n =>
      obtain ⟨c, w⟩ := d
      have hle : ¬ b < c := Memory.head_not_lt hm hn h
      have hge : ¬ c < b := Memory.head_not_lt hn hm fun a => (h a).symm
      obtain rfl : b = c := by omega
      obtain rfl : v = w := by simpa [Memory.read_head hb] using h (BitVec.ofNat 16 b)
      have htail : ∀ a, Memory.read m a = Memory.read n a := by
        intro a
        by_cases ha : a.toNat = b
        · rw [Memory.read_tail_at_head hm ha, Memory.read_tail_at_head hn ha]
        · simpa [Memory.read_cons, Ne.symm ha] using h a
      rw [ih (Memory.wf_tail hm) (Memory.wf_tail hn) htail]

/-- The memory that holds `img`: its 65 536 words placed from address 0 on. -/
def Memory.ofContent (img : Word → Word) : Memory :=
  Memory.place [] 0 ((List.range 65536).map fun n => img (BitVec.ofNat 16 n))

theorem Memory.ofContent_wf (img : Word → Word) : (Memory.ofContent img).wf :=
  Memory.place_wf Memory.nil_wf _ _

theorem Memory.read_ofContent (img : Word → Word) (a : Word) :
    (Memory.ofContent img).read a = img a := by
  rw [Memory.ofContent, Memory.read_place _ _ _ (by simp)]
  have ha : a.toNat < 65536 := a.isLt
  simp [ha]

/-- Settles O21: the content placed word by word is canonical, and canonical memories that read alike
are equal. -/
theorem memoryHoldsEveryImageOnce : Obligations.MemoryHoldsEveryImageOnce := by
  intro img
  refine ⟨Memory.ofContent img, ⟨Memory.ofContent_wf img, Memory.read_ofContent img⟩, ?_⟩
  intro m hm hread
  exact Memory.eq_of_read_eq hm (Memory.ofContent_wf img) fun a => by
    rw [hread, Memory.read_ofContent]

end Sys2Proof.Machine
end

section
/-! What executing one instruction can do to the state, said once: a list of cases told by what the
instruction may write. The statements about single fields and the invariant follow from the cases. -/

namespace Sys2Proof.Machine

/-! ### States reached by reads and output alone -/

/-- The states that reads of memory and output alone lead to from `s`. -/
inductive State.ReadsAndPuts (s : State) : State → Prop
  | refl : s.ReadsAndPuts s
  | read {u : State} (a : Word) (h : s.ReadsAndPuts u) : s.ReadsAndPuts (u.memRead a).2
  | put {u : State} (bs : List Byte) (h : s.ReadsAndPuts u) : s.ReadsAndPuts (u.putBytes bs)

/-- PUTS and PUTSP only read and put out. -/
theorem printFrom_readsAndPuts {emit : Word → List Byte} {fuel : Nat} {a : Word} {s t : State}
    (h : printFrom emit fuel a s = .next t) : s.ReadsAndPuts t :=
  printFrom_keeps (P := s.ReadsAndPuts) (fun _ a hu => .read a hu) (fun _ bs hu => .put bs hu) .refl h

/-- A read changes no cell but the two that the poll writes (20_memory.md R30). -/
theorem State.memRead_cells (s : State) (a : Word) :
    cellsSameBut [0xFE00#16, 0xFE02#16] s (s.memRead a).2 := by
  intro c hc
  obtain ⟨hkbsr, hkbdr⟩ : c ≠ Config.kbsrAddr ∧ c ≠ Config.kbdrAddr := by
    simpa [Config.kbsrAddr, Config.kbdrAddr] using hc
  rcases State.memRead_cases s a with ⟨-, e⟩ | ⟨-, -, e⟩ | ⟨-, _, _, -, e⟩ <;> rw [e]
  · exact Memory.read_write_other hkbsr s.mem 0x0000#16
  · exact (Memory.read_write_other hkbdr _ _).trans (Memory.read_write_other hkbsr s.mem _)

/-- A read leaves a suffix of `In`. -/
theorem State.memRead_input_suffix (s : State) (a : Word) : (s.memRead a).2.input <:+ s.input := by
  obtain h | h := State.memRead_input s a
  · rw [h]
  · rw [h]; exact List.tail_suffix s.input

/-- The wait point leaves a suffix of `In`. -/
theorem State.awaitByte_input_suffix (s : State) (w : WaitPoint) :
    (s.awaitByte w).input <:+ s.input := by
  rcases h : s.input with _ | ⟨b, rest⟩
  · rw [State.awaitByte_none h, ← h]
  · cases w
    · rw [State.awaitByte_getc h]; exact List.suffix_cons b rest
    · rw [State.awaitByte_inChar h]; exact List.suffix_cons b rest

namespace State.ReadsAndPuts

variable {s t : State}

/-- Reads and output leave the registers, `pc`, COND and the run as they were. -/
theorem frame (h : s.ReadsAndPuts t) :
    t.regs = s.regs ∧ t.pc = s.pc ∧ t.cond = s.cond ∧ runSame s t := by
  induction h with
  | refl => simp [runSame]
  | read a _ ih => simpa [runSame] using ih
  | put bs _ ih => exact ih

theorem reg (h : s.ReadsAndPuts t) (r : Reg) : t.reg r = s.reg r := by
  obtain ⟨hregs, -⟩ := h.frame
  exact State.reg_congr hregs r

theorem pc (h : s.ReadsAndPuts t) : t.pc = s.pc := by
  obtain ⟨-, hpc, -⟩ := h.frame
  exact hpc

theorem cond (h : s.ReadsAndPuts t) : t.cond = s.cond := by
  obtain ⟨-, -, hcond, -⟩ := h.frame
  exact hcond

theorem running (h : s.ReadsAndPuts t) : t.running = s.running := by
  obtain ⟨-, -, -, hrunning, -⟩ := h.frame
  exact hrunning

theorem fault (h : s.ReadsAndPuts t) : t.fault = s.fault := by
  obtain ⟨-, -, -, -, hfault, -⟩ := h.frame
  exact hfault

theorem waiting (h : s.ReadsAndPuts t) : t.waiting = s.waiting := by
  obtain ⟨-, -, -, -, -, hwaiting⟩ := h.frame
  exact hwaiting

theorem mem_wf (h : s.ReadsAndPuts t) (hs : s.mem.wf) : t.mem.wf := by
  induction h with
  | refl => exact hs
  | read a _ ih => exact State.memRead_mem_wf ih a
  | put bs _ ih => exact ih

theorem cells (h : s.ReadsAndPuts t) : cellsSameBut [0xFE00#16, 0xFE02#16] s t := by
  induction h with
  | refl => exact fun _ _ => rfl
  | read a _ ih => exact fun c hc => (State.memRead_cells _ a c hc).trans (ih c hc)
  | put bs _ ih => exact ih

theorem input_suffix (h : s.ReadsAndPuts t) : t.input <:+ s.input := by
  induction h with
  | refl => exact List.suffix_rfl
  | read a _ ih => exact (State.memRead_input_suffix _ a).trans ih
  | put bs _ ih => exact ih

end State.ReadsAndPuts

/-! ### The cases of an instruction's effect -/

/-- What executing `i` in `s` can lead to. A case that writes something says that `i` may write it. -/
inductive Effect (i : Instr) (s : State) : State → Prop
  /-- a branch not taken -/
  | idle (hgo : i.stopsCore = false) : Effect i s s
  /-- the operate instructions, the loads and LEA -/
  | result {u : State} (dr : Reg) (v : Word) (hu : s.ReadsAndPuts u) (hdr : dr ∈ i.writtenRegs)
      (hgo : i.stopsCore = false) : Effect i s (u.writeResult dr v)
  /-- the stores -/
  | store {u : State} (a v : Word) (hu : s.ReadsAndPuts u) (hst : i.stores = true)
      (hgo : i.stopsCore = false) : Effect i s (u.memWrite a v)
  /-- the transfers without a link -/
  | jump (v : Word) (hpc : i.writesPc = true) (hgo : i.stopsCore = false) : Effect i s (s.setPc v)
  /-- the transfers with a link -/
  | call (v : Word) (h7 : 7 ∈ i.writtenRegs) (hpc : i.writesPc = true) (hgo : i.stopsCore = false) :
      Effect i s (s.link.setPc v)
  /-- a TRAP without a service, and the services that neither wait nor stop -/
  | service {u : State} (hu : s.link.ReadsAndPuts u) (h7 : 7 ∈ i.writtenRegs)
      (hgo : i.stopsCore = false) : Effect i s u
  /-- the services that wait for a byte -/
  | wait {u : State} (w : WaitPoint) (hu : s.link.ReadsAndPuts u) (h7 : 7 ∈ i.writtenRegs)
      (h0 : 0 ∈ i.writtenRegs) (hgo : i.stopsCore = false) : Effect i s (u.awaitByte w)
  /-- HALT -/
  | halt {u : State} (hu : s.link.ReadsAndPuts u) (h7 : 7 ∈ i.writtenRegs)
      (hstop : i.stopsCore = true) (hrti : i ≠ .rti) (hres : i ≠ .res) : Effect i s u.stopRunning
  /-- the abort -/
  | abort (c : FatalCause) (hi : i = .rti ∧ c = .rti ∨ i = .res ∧ c = .res) :
      Effect i s (s.raiseFatal c)

theorem branch_effect {i : Instr} (nzp : BitVec 3) (off : BitVec 9) (s : State)
    (hpc : i.writesPc = true) (hgo : i.stopsCore = false) : Effect i s (s.branch nzp off) := by
  unfold State.branch
  split
  · exact .jump _ hpc hgo
  · exact .idle hgo

/-- The mask 000 selects no flag, so NOP falls through (30_encoding.md R63). -/
theorem State.branch_zero_mask (s : State) (off : BitVec 9) : s.branch 0#3 off = s := by
  simp [State.branch, State.branchTaken]

theorem seven_mem_writtenRegs_trap (vect : BitVec 8) : 7 ∈ (Instr.trap vect).writtenRegs := by
  by_cases h : vect = 0x20#8 ∨ vect = 0x23#8 <;> simp [Instr.writtenRegs, h]

/-- The effect of TRAP, by its vector (44_trap.md R111, R112). -/
theorem execTrap_effect {vect : BitVec 8} {s t : State} (h : execTrap vect s = .next t) :
    Effect (.trap vect) s t := by
  have h7 := seven_mem_writtenRegs_trap vect
  unfold execTrap at h
  split_ifs at h with h20 h21 h22 h23 h24 h25
  · subst h20; cases h; exact .wait .getc .refl h7 (by decide) (by decide)
  · subst h21; cases h; exact .service (.put _ .refl) h7 (by decide)
  · subst h22; exact .service (printFrom_readsAndPuts h) h7 (by decide)
  · subst h23; cases h; exact .wait .inChar (.put _ .refl) h7 (by decide) (by decide)
  · subst h24; exact .service (printFrom_readsAndPuts h) h7 (by decide)
  · subst h25; cases h; exact .halt (.put _ .refl) h7 (by decide) (by decide) (by decide)
  · cases h; exact .service .refl h7 (by simpa [Instr.stopsCore] using h25)

/-- Every instruction has one of the effects, with the fields it may write. -/
theorem exec_effect {i : Instr} {s t : State} (h : exec i s = .next t) : Effect i s t := by
  cases i with
  | br nzp off => cases h; exact branch_effect nzp off s rfl rfl
  | nop off => cases h; rw [State.branch_zero_mask]; exact .idle rfl
  | addReg dr sr1 sr2 => cases h; exact .result dr _ .refl (List.mem_singleton_self dr) rfl
  | addImm dr sr1 imm => cases h; exact .result dr _ .refl (List.mem_singleton_self dr) rfl
  | andReg dr sr1 sr2 => cases h; exact .result dr _ .refl (List.mem_singleton_self dr) rfl
  | andImm dr sr1 imm => cases h; exact .result dr _ .refl (List.mem_singleton_self dr) rfl
  | notReg dr sr => cases h; exact .result dr _ .refl (List.mem_singleton_self dr) rfl
  | lea dr off => cases h; exact .result dr _ .refl (List.mem_singleton_self dr) rfl
  | ld dr off => cases h; exact .result dr _ (.read _ .refl) (List.mem_singleton_self dr) rfl
  | ldr dr base off => cases h; exact .result dr _ (.read _ .refl) (List.mem_singleton_self dr) rfl
  | ldi dr off => cases h; exact .result dr _ (.read _ (.read _ .refl)) (List.mem_singleton_self dr) rfl
  | st sr off => cases h; exact .store _ _ .refl rfl rfl
  | str sr base off => cases h; exact .store _ _ .refl rfl rfl
  | sti sr off => cases h; exact .store _ _ (.read _ .refl) rfl rfl
  | jmp base => cases h; exact .jump _ rfl rfl
  | ret => cases h; exact .jump _ rfl rfl
  | jsr off => cases h; exact .call _ (List.mem_singleton_self 7) rfl rfl
  | jsrr base => cases h; exact .call _ (List.mem_singleton_self 7) rfl rfl
  | rti => cases h; exact .abort .rti (.inl ⟨rfl, rfl⟩)
  | res => cases h; exact .abort .res (.inr ⟨rfl, rfl⟩)
  | trap vect => exact execTrap_effect h
  | getc => cases h; exact .wait .getc .refl (by decide) (by decide) rfl
  | inChar => cases h; exact .wait .inChar (.put _ .refl) (by decide) (by decide) rfl
  | out => cases h; exact .service (.put _ .refl) (by decide) rfl
  | puts => exact .service (printFrom_readsAndPuts h) (by decide) rfl
  | putsp => exact .service (printFrom_readsAndPuts h) (by decide) rfl
  | halt => cases h; exact .halt (.put _ .refl) (by decide) rfl (by decide) (by decide)

namespace Effect

variable {i : Instr} {s t : State}

/-! ### What the cases say of each field -/

theorem regs (h : Effect i s t) : regsSameBut i.writtenRegs s t := by
  intro r hr
  have hne {q : Reg} (hq : q ∈ i.writtenRegs) : r ≠ q := fun e => hr (e ▸ hq)
  cases h with
  | idle => rfl
  | result dr v hu hdr => rw [State.reg_writeResult_other _ (hne hdr), hu.reg]
  | store a v hu => rw [State.reg_memWrite, hu.reg]
  | jump v => rfl
  | call v h7 => rw [State.reg_setPc, State.reg_link_other _ (hne h7)]
  | service hu h7 => rw [hu.reg, State.reg_link_other _ (hne h7)]
  | wait w hu h7 h0 =>
    rw [State.awaitByte_reg _ _ (hne h0), hu.reg, State.reg_link_other _ (hne h7)]
  | halt hu h7 => rw [State.reg_stopRunning, hu.reg, State.reg_link_other _ (hne h7)]
  | abort c => rfl

theorem pc (h : Effect i s t) (hi : i.writesPc = false) : t.pc = s.pc := by
  cases h with
  | idle => rfl
  | result dr v hu => exact hu.pc
  | store a v hu => exact hu.pc
  | jump v hpc => simp [hi] at hpc
  | call v h7 hpc => simp [hi] at hpc
  | service hu => exact hu.pc
  | wait w hu => rw [State.awaitByte_pc]; exact hu.pc
  | halt hu => exact hu.pc
  | abort c => rfl

theorem cells (h : Effect i s t) (hi : i.stores = false) :
    cellsSameBut [0xFE00#16, 0xFE02#16] s t := by
  cases h with
  | idle => exact fun _ _ => rfl
  | result dr v hu => exact hu.cells
  | store a v hu hst => simp [hi] at hst
  | jump v => exact fun _ _ => rfl
  | call v => exact fun _ _ => rfl
  | service hu => exact hu.cells
  | wait w hu => intro a ha; rw [State.awaitByte_mem]; exact hu.cells a ha
  | halt hu => exact hu.cells
  | abort c => exact fun _ _ => rfl

theorem input_suffix (h : Effect i s t) : t.input <:+ s.input := by
  cases h with
  | idle => exact List.suffix_rfl
  | result dr v hu => exact hu.input_suffix
  | store a v hu => exact hu.input_suffix
  | jump v => exact List.suffix_rfl
  | call v => exact List.suffix_rfl
  | service hu => exact hu.input_suffix
  | wait w hu => exact (State.awaitByte_input_suffix _ w).trans hu.input_suffix
  | halt hu => exact hu.input_suffix
  | abort c => exact List.suffix_rfl

/-- The run goes on, ends by HALT or is aborted. -/
theorem run_cases (h : Effect i s t) :
    (i.stopsCore = false ∧ t.running = s.running ∧ t.fault = s.fault) ∨
    (i.stopsCore = true ∧ i ≠ .rti ∧ i ≠ .res ∧ t.running = false ∧ t.fault = s.fault) ∨
    ∃ c, (i = .rti ∧ c = .rti ∨ i = .res ∧ c = .res) ∧ t.running = false ∧ t.fault = some c := by
  cases h with
  | idle hgo => exact .inl ⟨hgo, rfl, rfl⟩
  | result dr v hu hdr hgo => exact .inl ⟨hgo, hu.running, hu.fault⟩
  | store a v hu hst hgo => exact .inl ⟨hgo, hu.running, hu.fault⟩
  | jump v hpc hgo => exact .inl ⟨hgo, rfl, rfl⟩
  | call v h7 hpc hgo => exact .inl ⟨hgo, rfl, rfl⟩
  | service hu h7 hgo => exact .inl ⟨hgo, hu.running, hu.fault⟩
  | wait w hu h7 h0 hgo =>
    exact .inl ⟨hgo, by rw [State.awaitByte_running, hu.running]; rfl,
      by rw [State.awaitByte_fault, hu.fault]; rfl⟩
  | halt hu h7 hstop hrti hres => exact .inr (.inl ⟨hstop, hrti, hres, rfl, hu.fault⟩)
  | abort c hi => exact .inr (.inr ⟨c, hi, rfl, rfl⟩)

theorem mem_wf (h : Effect i s t) (hs : s.mem.wf) : t.mem.wf := by
  cases h with
  | idle => exact hs
  | result dr v hu => exact hu.mem_wf hs
  | store a v hu => exact State.memWrite_mem_wf (hu.mem_wf hs) a v
  | jump v => exact hs
  | call v => exact hs
  | service hu => exact hu.mem_wf hs
  | wait w hu => rw [State.awaitByte_mem]; exact hu.mem_wf hs
  | halt hu => exact hu.mem_wf hs
  | abort c => exact hs

/-- COND is left alone or set from a word (10_state.md R15). -/
theorem cond_cases (h : Effect i s t) : t.cond = s.cond ∨ ∃ v, t.cond = flagOf v := by
  cases h with
  | idle => exact .inl rfl
  | result dr v => exact .inr ⟨v, State.writeResult_cond _ dr v⟩
  | store a v hu => exact .inl hu.cond
  | jump v => exact .inl rfl
  | call v => exact .inl rfl
  | service hu => exact .inl hu.cond
  | wait w hu => exact .inl (by rw [State.awaitByte_cond, hu.cond]; rfl)
  | halt hu => exact .inl hu.cond
  | abort c => exact .inl rfl

/-- The wait point is left alone, or it is that of a service that has linked (44_trap.md R119). -/
theorem waiting_cases (h : Effect i s t) :
    t.waiting = s.waiting ∨ t.running = s.running ∧ t.reg 7 = t.pc := by
  cases h with
  | idle => exact .inl rfl
  | result dr v hu => exact .inl hu.waiting
  | store a v hu => exact .inl hu.waiting
  | jump v => exact .inl rfl
  | call v => exact .inl rfl
  | service hu => exact .inl hu.waiting
  | wait w hu =>
    refine .inr ⟨by rw [State.awaitByte_running, hu.running]; rfl, ?_⟩
    rw [State.awaitByte_reg _ _ (by decide), State.awaitByte_pc, hu.reg, hu.pc]
    simp
  | halt hu => exact .inl hu.waiting
  | abort c => exact .inl rfl

end Effect

/-! ### The step -/

/-- Everything a step can do: run an instruction, retry a wait point, or hold a stopped CORE. -/
theorem step_cases {s t : State} (h : step s = .next t) :
    (s.running = true ∧ s.waiting = none ∧ exec (decode s.fetch.1) s.fetch.2 = .next t) ∨
    (∃ w, s.running = true ∧ s.waiting = some w ∧ t = s.awaitByte w) ∨
    (s.running = false ∧ t = s) := by
  unfold step at h
  cases hr : s.running with
  | false =>
    rw [State.condition_stopped hr] at h
    cases h
    exact .inr (.inr ⟨rfl, rfl⟩)
  | true =>
    cases hw : s.waiting with
    | none =>
      rw [State.condition_running hr hw] at h
      exact .inl ⟨rfl, rfl, h⟩
    | some w =>
      rw [State.condition_blocked hr hw] at h
      cases h
      exact .inr (.inl ⟨w, rfl, rfl, rfl⟩)

end Sys2Proof.Machine
end

section
/-! What an instruction leaves unchanged, read off the cases of its effect. -/

namespace Sys2Proof.Machine

/-- Settles O53: each effect writes only registers of the instruction's list. -/
theorem registersWrittenOnlyByTheirRows : Obligations.RegistersWrittenOnlyByTheirRows :=
  fun _ _ _ h => (exec_effect h).regs

/-- Settles O54: the two effects that write `pc` are those of the control transfers. -/
theorem pcWrittenOnlyByControlTransfers : Obligations.PcWrittenOnlyByControlTransfers :=
  fun _ _ _ h => (exec_effect h).pc

/-- Settles O55: without a store, memory changes by polls alone. -/
theorem cellsChangedOnlyByStoresAndPolls : Obligations.CellsChangedOnlyByStoresAndPolls :=
  fun _ _ _ h => (exec_effect h).cells

/-- Settles O56, by the three ways a run can go on. -/
theorem runEndsOnlyByHaltAndAbort : Obligations.RunEndsOnlyByHaltAndAbort := by
  intro i s t h
  rcases (exec_effect h).run_cases with
    ⟨hgo, hrun, hfault⟩ | ⟨hstop, hrti, hres, hrun, hfault⟩ | ⟨c, ⟨rfl, rfl⟩ | ⟨rfl, rfl⟩, hrun, hfault⟩
  · have hrti : i ≠ .rti := by rintro rfl; cases hgo
    have hres : i ≠ .res := by rintro rfl; cases hgo
    simp [hgo, hrun, hfault, hrti, hres]
  · simp [hstop, hrun, hfault, hrti, hres]
  · simp [Instr.stopsCore, hrun, hfault]
  · simp [Instr.stopsCore, hrun, hfault]

end Sys2Proof.Machine
end

section
/-! The invariant: reset states have it, an instruction, a step and every event keep it, hence every run
does. -/

namespace Sys2Proof.Machine

/-- An instruction keeps the invariant in a CORE that is running and not blocked. -/
theorem exec_keeps_inv {i : Instr} {s t : State} (hs : s.Inv) (hr : s.running = true)
    (hw : s.waiting = none) (h : exec i s = .next t) : t.Inv := by
  have he := exec_effect h
  have hnofault : s.fault = none := by
    by_contra hf
    simp [hs.fault_stopped hf] at hr
  refine ⟨he.mem_wf hs.mem_wf, ?_, ?_, ?_, ?_⟩
  · obtain hc | ⟨v, hc⟩ := he.cond_cases <;> rw [hc]
    · exact hs.cond_one_flag
    · exact flagOf_cases v
  · rcases he.run_cases with ⟨-, -, hf⟩ | ⟨-, -, -, hrun, -⟩ | ⟨c, -, hrun, -⟩
    · intro hne
      rw [hf, hnofault] at hne
      exact absurd rfl hne
    · exact fun _ => hrun
    · exact fun _ => hrun
  · intro hne
    obtain hwt | ⟨hrun, -⟩ := he.waiting_cases
    · exact absurd (hwt.trans hw) hne
    · exact hrun.trans hr
  · intro hne
    obtain hwt | ⟨-, hlink⟩ := he.waiting_cases
    · exact absurd (hwt.trans hw) hne
    · exact hlink

/-- The fetch keeps the invariant in a CORE that is not blocked. -/
theorem fetch_keeps_inv {s : State} (hs : s.Inv) (hw : s.waiting = none) : s.fetch.2.Inv where
  mem_wf := State.memRead_mem_wf hs.mem_wf s.pc
  cond_one_flag := by simpa using hs.cond_one_flag
  fault_stopped := by simpa using hs.fault_stopped
  waiting_running := by simp [hw]
  waiting_linked := by simp [hw]

/-- The step of a blocked CORE keeps the invariant. -/
theorem awaitByte_keeps_inv {s : State} (hs : s.Inv) {w : WaitPoint} (hw : s.waiting = some w) :
    (s.awaitByte w).Inv where
  mem_wf := by simpa using hs.mem_wf
  cond_one_flag := by simpa using hs.cond_one_flag
  fault_stopped := by simpa using hs.fault_stopped
  waiting_running _ := by simpa using hs.waiting_running (by simp [hw])
  waiting_linked _ := by
    rw [State.awaitByte_reg _ _ (by decide), State.awaitByte_pc]
    exact hs.waiting_linked (by simp [hw])

/-- Settles O3, by the three things a step can do. -/
theorem stepKeepsInvariant : Obligations.StepKeepsInvariant := by
  intro s t hs h
  rcases step_cases h with ⟨hr, hw, h⟩ | ⟨w, hr, hw, rfl⟩ | ⟨-, rfl⟩
  · exact exec_keeps_inv (fetch_keeps_inv hs hw) (by simpa using hr) (by simpa using hw) h
  · exact awaitByte_keeps_inv hs hw
  · exact hs

theorem resetWith_inv {img : Memory} (h : img.wf) (input output : List Byte) :
    (State.resetWith img input output).Inv where
  mem_wf := h
  cond_one_flag := .inr (.inl rfl)
  fault_stopped hne := absurd rfl hne
  waiting_running _ := rfl
  waiting_linked hne := absurd rfl hne

/-- Settles O2: both are resets with a canonical image. -/
theorem resetStatesSatisfyInvariant : Obligations.ResetStatesSatisfyInvariant :=
  ⟨resetWith_inv Memory.nil_wf [] [], fun s _ h => resetWith_inv h s.input s.output⟩

theorem supplyByte_keeps_inv {s : State} (hs : s.Inv) (b : Byte) : (s.supplyByte b).Inv :=
  ⟨hs.mem_wf, hs.cond_one_flag, hs.fault_stopped, hs.waiting_running, hs.waiting_linked⟩

theorem endOfInput_keeps_inv {s : State} (hs : s.Inv) (policy : Config.EofPolicy) :
    (s.endOfInput policy).Inv := by
  cases policy with
  | hang => exact hs
  | zero => exact supplyByte_keeps_inv hs _

/-- Every event keeps the invariant, a reset with a canonical image even without it. -/
theorem happen_keeps_inv {e : Event} {s t : State} (he : e.wf) (hs : s.Inv)
    (h : happen e s = .next t) : t.Inv := by
  cases e with
  | core => exact stepKeepsInvariant s t hs h
  | supply b => cases h; exact supplyByte_keeps_inv hs b
  | eof policy => cases h; exact endOfInput_keeps_inv hs policy
  | reset img => cases h; exact resetWith_inv he _ _

/-- A run that answers has an answer after its first event. -/
theorem runEvents_cons {e : Event} {es : List Event} {s t : State}
    (h : runEvents (e :: es) s = .next t) :
    ∃ u, happen e s = .next u ∧ runEvents es u = .next t := by
  rw [runEvents] at h
  split at h
  · exact ⟨_, ‹_›, h⟩
  · cases h
  · cases h

/-- Settles O4, by induction on the events. -/
theorem runsKeepInvariant : Obligations.RunsKeepInvariant := by
  intro es
  induction es with
  | nil =>
    intro s t _ hs h
    cases h
    exact hs
  | cons e es ih =>
    intro s t hwf hs h
    obtain ⟨u, hu, hrest⟩ := runEvents_cons h
    obtain ⟨he, hes⟩ := List.forall_mem_cons.mp hwf
    exact ih u t hes (happen_keeps_inv he hs hu) hrest

end Sys2Proof.Machine
end

section
/-! The host channels. A step leaves a suffix of `In` (10_state.md R22). Bytes put in front of `Out`
stay in front of it and change nothing else, so a step never reads `Out` back and only appends to it
(R23). -/

namespace Sys2Proof.Machine

/-- The state with `out` in front of everything in `Out`. -/
def State.prependOut (out : List Byte) (s : State) : State := { s with output := out ++ s.output }

/-- The same for an answer. -/
def prependOutResult (out : List Byte) : Result → Result
  | .next t => .next (t.prependOut out)
  | .fault r => .fault r
  | .refused r => .refused r

/-! ### The operations -/

@[simp] theorem State.prependOut_reg (out : List Byte) (s : State) (r : Reg) :
    (s.prependOut out).reg r = s.reg r := rfl

@[simp] theorem State.prependOut_input (out : List Byte) (s : State) :
    (s.prependOut out).input = s.input := rfl

@[simp] theorem State.memRead_prependOut (out : List Byte) (s : State) (a : Word) :
    (s.prependOut out).memRead a = ((s.memRead a).1, (s.memRead a).2.prependOut out) := by
  rcases State.memRead_cases s a with ⟨ha, h⟩ | ⟨rfl, hin, h⟩ | ⟨rfl, b, rest, hin, h⟩ <;> rw [h]
  · exact State.memRead_other _ ha
  · exact State.memRead_kbsr_none hin
  · exact State.memRead_kbsr_some hin

theorem State.indirect9_prependOut (out : List Byte) (s : State) (off : BitVec 9) :
    (s.prependOut out).indirect9 off = ((s.indirect9 off).1, (s.indirect9 off).2.prependOut out) :=
  State.memRead_prependOut out s (s.pcRel9 off)

@[simp] theorem State.putBytes_prependOut (out : List Byte) (s : State) (bs : List Byte) :
    (s.prependOut out).putBytes bs = (s.putBytes bs).prependOut out := by
  simp [State.putBytes, State.prependOut]

@[simp] theorem State.loadInto_prependOut (out : List Byte) (s : State) (dr : Reg) (a : Word) :
    (s.prependOut out).loadInto dr a = (s.loadInto dr a).prependOut out := by
  rw [State.loadInto, State.memRead_prependOut]; rfl

@[simp] theorem State.branch_prependOut (out : List Byte) (s : State) (nzp : BitVec 3)
    (off : BitVec 9) : (s.prependOut out).branch nzp off = (s.branch nzp off).prependOut out := by
  have ht : (s.prependOut out).branchTaken nzp = s.branchTaken nzp := rfl
  rw [State.branch, State.branch, ht]
  split <;> rfl

@[simp] theorem State.awaitByte_prependOut (out : List Byte) (s : State) (w : WaitPoint) :
    (s.prependOut out).awaitByte w = (s.awaitByte w).prependOut out := by
  rcases h : s.input with _ | ⟨b, rest⟩
  · rw [State.awaitByte_none h, State.awaitByte_none (s := s.prependOut out) h]; rfl
  · cases w with
    | getc => rw [State.awaitByte_getc h, State.awaitByte_getc (s := s.prependOut out) h]; rfl
    | inChar =>
      rw [State.awaitByte_inChar h, State.awaitByte_inChar (s := s.prependOut out) h]
      exact congrArg (·.setReg 0 (zext8 b))
        (State.putBytes_prependOut out { s with input := rest, waiting := none } [b])

/-- The printing loop emits the same bytes whatever stands in `Out`. -/
theorem printFrom_prependOut (out : List Byte) (emit : Word → List Byte) (fuel : Nat) (a : Word)
    (s : State) : printFrom emit fuel a (s.prependOut out) =
      prependOutResult out (printFrom emit fuel a s) := by
  induction fuel generalizing a s with
  | zero => rfl
  | succ fuel ih =>
    by_cases hz : (s.memRead a).1 = 0x0000#16
    · rw [printFrom_end hz, printFrom_end (by simpa using hz)]
      simp [prependOutResult]
    · rw [printFrom_more hz, printFrom_more (by simpa using hz)]
      simp [ih]

/-! ### The instructions -/

theorem State.link_prependOut (out : List Byte) (s : State) :
    (s.prependOut out).link = s.link.prependOut out := rfl

theorem serviceGetc_prependOut (out : List Byte) (s : State) :
    serviceGetc (s.prependOut out) = prependOutResult out (serviceGetc s) := by
  simp [serviceGetc, prependOutResult]

theorem serviceOut_prependOut (out : List Byte) (s : State) :
    serviceOut (s.prependOut out) = prependOutResult out (serviceOut s) := by
  simp [serviceOut, prependOutResult]

theorem serviceIn_prependOut (out : List Byte) (s : State) :
    serviceIn (s.prependOut out) = prependOutResult out (serviceIn s) := by
  simp [serviceIn, prependOutResult]

theorem serviceHalt_prependOut (out : List Byte) (s : State) :
    serviceHalt (s.prependOut out) = prependOutResult out (serviceHalt s) := by
  rw [serviceHalt, State.putBytes_prependOut]; rfl

theorem servicePuts_prependOut (out : List Byte) (s : State) :
    servicePuts (s.prependOut out) = prependOutResult out (servicePuts s) :=
  printFrom_prependOut out putsBytes (printFuel s) (s.reg 0) s

theorem servicePutsp_prependOut (out : List Byte) (s : State) :
    servicePutsp (s.prependOut out) = prependOutResult out (servicePutsp s) :=
  printFrom_prependOut out putspBytes (printFuel s) (s.reg 0) s

theorem execTrap_prependOut (out : List Byte) (vect : BitVec 8) (s : State) :
    execTrap vect (s.prependOut out) = prependOutResult out (execTrap vect s) := by
  unfold execTrap
  rw [State.link_prependOut]
  split_ifs
  · exact serviceGetc_prependOut out s.link
  · exact serviceOut_prependOut out s.link
  · exact servicePuts_prependOut out s.link
  · exact serviceIn_prependOut out s.link
  · exact servicePutsp_prependOut out s.link
  · exact serviceHalt_prependOut out s.link
  · rfl

theorem execLdi_prependOut (out : List Byte) (dr : Reg) (off : BitVec 9) (s : State) :
    execLdi dr off (s.prependOut out) = prependOutResult out (execLdi dr off s) := by
  rw [execLdi, State.indirect9_prependOut, State.loadInto_prependOut]; rfl

theorem execSti_prependOut (out : List Byte) (sr : Reg) (off : BitVec 9) (s : State) :
    execSti sr off (s.prependOut out) = prependOutResult out (execSti sr off s) := by
  rw [execSti, State.indirect9_prependOut]; rfl

/-- No instruction reads `Out` back. -/
theorem exec_prependOut (out : List Byte) (i : Instr) (s : State) :
    exec i (s.prependOut out) = prependOutResult out (exec i s) := by
  cases i with
  | addReg dr sr1 sr2 => rfl
  | addImm dr sr1 imm => rfl
  | andReg dr sr1 sr2 => rfl
  | andImm dr sr1 imm => rfl
  | notReg dr sr => rfl
  | lea dr off => rfl
  | ld dr off => exact congrArg Host.Outcome.next (State.loadInto_prependOut out s dr _)
  | ldr dr base off => exact congrArg Host.Outcome.next (State.loadInto_prependOut out s dr _)
  | ldi dr off => exact execLdi_prependOut out dr off s
  | st sr off => rfl
  | str sr base off => rfl
  | sti sr off => exact execSti_prependOut out sr off s
  | br nzp off => exact congrArg Host.Outcome.next (State.branch_prependOut out s nzp off)
  | nop off => exact congrArg Host.Outcome.next (State.branch_prependOut out s 0#3 off)
  | jmp base => rfl
  | ret => rfl
  | jsr off => rfl
  | jsrr base => rfl
  | rti => rfl
  | res => rfl
  | trap vect => exact execTrap_prependOut out vect s
  | getc => exact serviceGetc_prependOut out s.link
  | out => exact serviceOut_prependOut out s.link
  | puts => exact servicePuts_prependOut out s.link
  | inChar => exact serviceIn_prependOut out s.link
  | putsp => exact servicePutsp_prependOut out s.link
  | halt => exact serviceHalt_prependOut out s.link

/-- No step reads `Out` back. -/
theorem step_prependOut (out : List Byte) (s : State) :
    step (s.prependOut out) = prependOutResult out (step s) := by
  have hcond : (s.prependOut out).condition = s.condition := rfl
  have hfetch : (s.prependOut out).fetch = (s.fetch.1, s.fetch.2.prependOut out) := by
    rw [State.fetch, State.fetch]
    exact congrArg (fun p => (p.1, p.2.setPc (s.pc + 1))) (State.memRead_prependOut out s s.pc)
  unfold step
  rw [hcond]
  split
  · rw [hfetch]; exact exec_prependOut out _ _
  · exact congrArg Host.Outcome.next (State.awaitByte_prependOut out s _)
  · rfl

/-! ### The statements -/

/-- A step answers what it answers with `Out` empty, behind the bytes that stand in `Out`. -/
theorem step_from_empty_output {s t : State} (h : step s = .next t) :
    ∃ u, step { s with output := [] } = .next u ∧ t = u.prependOut s.output := by
  have hs : s = State.prependOut s.output { s with output := [] } := by simp [State.prependOut]
  rw [hs, step_prependOut] at h
  cases hu : step { s with output := [] } with
  | next u =>
    rw [hu] at h
    cases h
    exact ⟨u, rfl, rfl⟩
  | fault r => rw [hu] at h; cases h
  | refused r => rw [hu] at h; cases h

/-- Settles O58: a step from any `Out` is the step from the empty one, behind what stood there. -/
theorem outputIsNeverReadBack : Obligations.OutputIsNeverReadBack := by
  intro s t out h
  obtain ⟨u, hu, rfl⟩ := step_from_empty_output h
  refine ⟨u.output, rfl, ?_⟩
  have hs : { s with output := out } = State.prependOut out { s with output := [] } := by
    simp [State.prependOut]
  rw [hs, step_prependOut, hu]
  rfl

theorem State.fetch_input_suffix (s : State) : s.fetch.2.input <:+ s.input :=
  State.memRead_input_suffix s s.pc

theorem step_input_suffix {s t : State} (h : step s = .next t) : t.input <:+ s.input := by
  rcases step_cases h with ⟨-, -, h⟩ | ⟨w, -, -, rfl⟩ | ⟨-, rfl⟩
  · exact (exec_effect h).input_suffix.trans s.fetch_input_suffix
  · exact State.awaitByte_input_suffix s w
  · exact List.suffix_rfl

/-- Settles O57: a step leaves a suffix of `In`, and `Out` stays in front of what the step emits. -/
theorem channelsMoveInOrder : Obligations.ChannelsMoveInOrder := by
  intro s t h
  have hin := List.suffix_iff_eq_drop.mp (step_input_suffix h)
  obtain ⟨u, -, rfl⟩ := step_from_empty_output h
  exact ⟨⟨_, hin⟩, u.output, rfl⟩

end Sys2Proof.Machine
end

section
/-! The memory interface: `MemRead` is the read of the spec, `MemWrite` stores one cell, and what the two
give one after the other (20_memory.md R30 to R34). -/

namespace Sys2Proof.Machine

/-- A byte's zero extension is the word of the same value. -/
theorem zext8_eq_ofNat (b : Byte) : zext8 b = BitVec.ofNat 16 b.toNat :=
  (BitVec.ofNat_toNat 16 b).symm

/-- A store changes no cell but its own. -/
theorem State.memWrite_cells (s : State) (a v : Word) : cellsSameBut [a] s (s.memWrite a v) :=
  fun _ hc => Memory.read_write_other (List.ne_of_not_mem_cons hc) s.mem v

/-- A poll that finds a byte sets bit 15 of KBSR, leaves the byte in KBDR and takes it from `In`
(20_memory.md R30). -/
theorem State.memRead_kbsr_takes {s : State} {b : Byte} {rest : List Byte} (h : s.input = b :: rest) :
    (s.memRead Config.kbsrAddr).1 = 0x8000#16 ∧
      (s.memRead Config.kbsrAddr).2.mem.read Config.kbsrAddr = 0x8000#16 ∧
      (s.memRead Config.kbsrAddr).2.mem.read Config.kbdrAddr = BitVec.ofNat 16 b.toNat ∧
      (s.memRead Config.kbsrAddr).2.input = rest := by
  rw [State.memRead_kbsr_some h]
  simp [Memory.read_write_other kbsr_ne_kbdr, zext8_eq_ofNat]

/-- The model's read is the read that R30 and R32 describe, at every address. -/
theorem State.memRead_readGives (s : State) (a : Word) :
    readGives a s (s.memRead a).2 (s.memRead a).1 := by
  rcases State.memRead_cases s a with ⟨ha, h⟩ | ⟨rfl, hin, h⟩ | ⟨rfl, b, rest, hin, -⟩
  · rw [h]
    exact ⟨fun _ => ⟨rfl, fun _ _ => rfl, rfl⟩, fun hk => absurd hk ha, fun _ _ hk => absurd hk ha⟩
  · rw [h]
    refine ⟨fun hk => absurd rfl hk, fun _ _ => ⟨rfl, ?_, ?_, hin⟩, fun b rest _ hcons => ?_⟩
    · exact Memory.read_write_same s.mem Config.kbsrAddr 0x0000#16
    · exact State.memWrite_cells s Config.kbsrAddr 0x0000#16
    · simp [hin] at hcons
  · refine ⟨fun hk => absurd rfl hk, fun _ hnil => ?_, fun c rest' _ hcons => ?_⟩
    · simp [hin] at hnil
    · obtain ⟨hword, hkbsr, hkbdr, hrest⟩ := State.memRead_kbsr_takes hcons
      exact ⟨hword, hkbsr, hkbdr, State.memRead_cells s Config.kbsrAddr, hrest⟩

/-- The word a read of KBSR gives tells whether a byte is pending, whatever stands in the cell
(20_memory.md R30, R34). -/
theorem State.memRead_kbsr_word (s : State) :
    (s.memRead Config.kbsrAddr).1 = if s.input = [] then 0x0000#16 else 0x8000#16 := by
  cases hin : s.input with
  | nil => rw [State.memRead_kbsr_none hin, if_pos rfl]
  | cons b rest => rw [State.memRead_kbsr_some hin, if_neg (List.cons_ne_nil b rest)]

/-- Settles O17: the read of the spec, at KBSR, with the frame of `MemRead`. -/
theorem readOfKbsrPolls : Obligations.ReadOfKbsrPolls := by
  intro s
  refine ⟨State.memRead_readGives s Config.kbsrAddr, fun r _ => State.memRead_reg s Config.kbsrAddr r, ?_⟩
  simp [runSame]

/-- Settles O18: the poll is the only effect a read can have. -/
theorem readElsewhereChangesNothing : Obligations.ReadElsewhereChangesNothing :=
  fun s _ ha => State.memRead_other s ha

/-- Settles O19: the two cases of a read after a write, and the frame of `MemWrite`. -/
theorem writeStoresExactlyOneCell : Obligations.WriteStoresExactlyOneCell :=
  fun s a v => ⟨Memory.read_write_same s.mem a v, State.memWrite_cells s a v, fun _ _ => rfl, rfl, rfl,
    ⟨rfl, rfl, rfl⟩, rfl, rfl⟩

/-- Settles O20: the poll's word does not depend on the cell, and a second poll takes the second byte. -/
theorem pollOverwritesWhatStoodThere : Obligations.PollOverwritesWhatStoodThere := by
  refine ⟨fun s v => State.memRead_kbsr_word (s.memWrite Config.kbsrAddr v), ?_⟩
  intro s b c rest hin
  obtain ⟨-, -, -, hrest⟩ := State.memRead_kbsr_takes hin
  obtain ⟨-, -, hsecond⟩ := State.memRead_kbsr_takes hrest
  exact hsecond

/-! ### Loads and stores one after the other -/

/-- A load from anywhere but KBSR writes the cell to its destination. -/
theorem State.loadInto_other (s : State) (dr : Reg) {a : Word} (h : a ≠ Config.kbsrAddr) :
    s.loadInto dr a = s.writeResult dr (s.mem.read a) := by
  rw [State.loadInto, State.memRead_other s h]

/-- A load leaves every register but its destination. -/
theorem State.reg_loadInto_other (s : State) {dr r : Reg} (h : r ≠ dr) (a : Word) :
    (s.loadInto dr a).reg r = s.reg r := by
  rw [State.loadInto, State.reg_writeResult_other _ h, State.memRead_reg]

/-- A load of KBSR that finds a byte reads as bit 15 alone and sets NEG; the byte stands in KBDR. -/
theorem State.loadInto_kbsr_some {s : State} {b : Byte} {rest : List Byte} (h : s.input = b :: rest)
    (dr : Reg) :
    (s.loadInto dr Config.kbsrAddr).reg dr = 0x8000#16 ∧
      (s.loadInto dr Config.kbsrAddr).cond = 0x0004#16 ∧
      (s.loadInto dr Config.kbsrAddr).mem.read Config.kbdrAddr = BitVec.ofNat 16 b.toNat ∧
      (s.loadInto dr Config.kbsrAddr).input = rest := by
  obtain ⟨hword, -, hbyte, hrest⟩ := State.memRead_kbsr_takes h
  rw [State.loadInto, hword]
  exact ⟨State.reg_writeResult_same _ dr _, (State.writeResult_cond _ dr _).trans (by decide), hbyte,
    hrest⟩

theorem State.baseRel6_memWrite (s : State) (a v : Word) (base : Reg) (off : BitVec 6) :
    (s.memWrite a v).baseRel6 base off = s.baseRel6 base off := rfl

/-- Settles O23: the load's address is the store's, since STR writes no register. -/
theorem storeThenLoadReturnsStored : Obligations.StoreThenLoadReturnsStored := by
  intro s sr dr base off haddr
  refine ⟨_, _, rfl, rfl, ?_⟩
  change s.baseRel6 base off ≠ Config.kbsrAddr at haddr
  rw [State.baseRel6_memWrite, State.loadInto_other _ dr haddr]
  exact ⟨(State.reg_writeResult_same _ dr _).trans (Memory.read_write_same s.mem _ _), rfl⟩

/-- Settles O24: the first load polls and keeps the base, so the second reads KBDR, where the poll put
the byte. -/
theorem kbsrThenKbdrGivesTheByte : Obligations.KbsrThenKbdrGivesTheByte := by
  intro s d e base b rest hbase hd hin
  obtain ⟨hword, hneg, hbyte, hrest⟩ := State.loadInto_kbsr_some hin d
  have hkbsr : s.baseRel6 base 0#6 = Config.kbsrAddr := by
    rw [State.baseRel6, hbase]; decide
  have hkbdr : (s.loadInto d Config.kbsrAddr).baseRel6 base 2#6 = Config.kbdrAddr := by
    rw [State.baseRel6, State.reg_loadInto_other s hd.symm, hbase]; decide
  refine ⟨s.loadInto d Config.kbsrAddr, (s.loadInto d Config.kbsrAddr).loadInto e Config.kbdrAddr,
    ?_, hword, hneg, ?_, ?_⟩
  · exact congrArg (fun a => Host.Outcome.next (s.loadInto d a)) hkbsr
  · exact congrArg (fun a => Host.Outcome.next ((s.loadInto d Config.kbsrAddr).loadInto e a)) hkbdr
  · rw [State.loadInto_other _ e kbsr_ne_kbdr.symm]
    exact ⟨(State.reg_writeResult_same _ e _).trans hbyte, hrest⟩

/-! ### A stored word is fetched -/

/-- The step of a running CORE away from KBSR executes the cell at `pc`, which the fetch does not change
(40_fetch_dispatch.md R70 to R72). -/
theorem step_of_running {s : State} (hr : s.running = true) (hw : s.waiting = none)
    (hpc : s.pc ≠ Config.kbsrAddr) :
    step s = exec (decode (s.mem.read s.pc)) (s.setPc (s.pc + 1)) := by
  rw [step, State.condition_running hr hw, State.fetch_other hpc]

/-- An ST with offset 0 stores at the address in `pc`. -/
theorem exec_st_zero (sr : Reg) (s : State) :
    exec (.st sr 0#9) s = .next (s.memWrite s.pc (s.reg sr)) := by
  have haddr : s.pcRel9 0#9 = s.pc := by simp [State.pcRel9, sext]
  exact congrArg (fun a => Host.Outcome.next (s.memWrite a (s.reg sr))) haddr

/-- Settles O22: the ST leaves `pc` at the cell it has just written, and the next fetch reads that
cell. -/
theorem storeIsSeenByNextFetch : Obligations.StoreIsSeenByNextFetch := by
  intro s sr hr hw hpc hnext hst
  refine ⟨(s.setPc (s.pc + 1)).memWrite (s.pc + 1) (s.reg sr), ?_, rfl, ?_⟩
  · rw [step_of_running hr hw hpc, hst, exec_st_zero]
    rfl
  · have hword := Memory.read_write_same s.mem (s.pc + 1) (s.reg sr)
    have hpc2 : s.pc + 1 + 1 = s.pc + 2 := BitVec.add_assoc s.pc 1 1
    refine Eq.trans (step_of_running hr hw hnext) ?_
    rw [State.memWrite_pc, State.setPc_pc, hpc2]
    exact congrArg (fun w => exec (decode w) _) hword

end Sys2Proof.Machine
end

section
/-! An instruction that reads no memory and does not wait does the same whatever stands in `In`
(20_memory.md R31, R45). -/

namespace Sys2Proof.Machine

/-- The state with `inp` for its `In`. -/
def State.withInput (inp : List Byte) (s : State) : State := { s with input := inp }

/-- The same for an answer. -/
def withInputResult (inp : List Byte) : Result → Result
  | .next t => .next (t.withInput inp)
  | .fault r => .fault r
  | .refused r => .refused r

theorem State.branch_withInput (inp : List Byte) (s : State) (nzp : BitVec 3) (off : BitVec 9) :
    (s.withInput inp).branch nzp off = (s.branch nzp off).withInput inp := by
  have ht : (s.withInput inp).branchTaken nzp = s.branchTaken nzp := rfl
  rw [State.branch, State.branch, ht]
  split <;> rfl

/-- The vectors whose service takes a byte excluded, what is left of TRAP is OUT, HALT and the link. -/
theorem execTrap_withInput (inp : List Byte) {vect : BitVec 8}
    (hi : (Instr.trap vect).mayTakeByte = false) (s : State) :
    execTrap vect (s.withInput inp) = withInputResult inp (execTrap vect s) := by
  have hvect : vect ≠ 0x20#8 ∧ vect ≠ 0x22#8 ∧ vect ≠ 0x23#8 ∧ vect ≠ 0x24#8 := by
    simpa [Instr.mayTakeByte, and_assoc] using hi
  obtain ⟨h20, h22, h23, h24⟩ := hvect
  simp only [execTrap, h20, h22, h23, h24, if_false]
  split_ifs <;> rfl

/-- No such instruction looks at `In`. -/
theorem exec_withInput (inp : List Byte) {i : Instr} (hi : i.mayTakeByte = false) (s : State) :
    exec i (s.withInput inp) = withInputResult inp (exec i s) := by
  cases i with
  | br nzp off => exact congrArg Host.Outcome.next (State.branch_withInput inp s nzp off)
  | nop off => exact congrArg Host.Outcome.next (State.branch_withInput inp s 0#3 off)
  | trap vect => exact execTrap_withInput inp hi s
  | ld | ldi | ldr | sti | getc | puts | inChar | putsp => cases hi
  | addReg | addImm | andReg | andImm | notReg | lea | st | str => rfl
  | jmp | ret | jsr | jsrr | rti | res | out | halt => rfl

/-- Settles O59: an answer with the input replaced is the answer for the input replaced; for the input
that stands there, this says that it is left as it is. -/
theorem inputUnseenWithoutReadOrWait : Obligations.InputUnseenWithoutReadOrWait := by
  intro i s t inp hi h
  have hreplace (bs : List Byte) : exec i (s.withInput bs) = .next (t.withInput bs) := by
    rw [exec_withInput bs hi s, h]; rfl
  have hsame : t = t.withInput s.input := Host.Outcome.next.inj (h.symm.trans (hreplace s.input))
  have hinput : t.input = (t.withInput s.input).input := congrArg State.input hsame
  exact ⟨hinput, hreplace inp⟩

end Sys2Proof.Machine
end

section
/-! Encoding: every field of an instruction word is read from its own place and from no other
(30_encoding.md R51, R52), so the decoder reads every format, and the encoder's words among them. -/

namespace Sys2Proof

/-! ### Fields of a word built from fields -/

@[simp] theorem getElem_bitsAt {n : Nat} (lo : Nat) (v : BitVec n) (i : Nat) (hi : i < 16) :
    (bitsAt lo v)[i] = (!decide (i < lo) && v.getLsbD (i - lo)) := by
  rw [← BitVec.getLsbD_eq_getElem, bitsAt_getLsbD]
  simp [hi]

theorem bitsAt_zero (lo n : Nat) : bitsAt lo 0#n = 0#16 := by
  simp [bitsAt]

/-- A field is read back from its own place. -/
@[simp] theorem extractLsb'_bitsAt_same {n lo : Nat} (h : lo + n ≤ 16) (v : BitVec n) :
    (bitsAt lo v).extractLsb' lo n = v := by
  apply BitVec.eq_of_getLsbD_eq
  intro i hi
  rw [BitVec.getLsbD_extractLsb', bitsAt_getLsbD]
  have hword : lo + i < 16 := by omega
  simp [hi, hword, -BitVec.getLsbD_eq_getElem]

/-- A field does not reach into another place. -/
@[simp] theorem extractLsb'_bitsAt_disjoint {n lo start len : Nat}
    (h : lo + n ≤ start ∨ start + len ≤ lo) (v : BitVec n) :
    (bitsAt lo v).extractLsb' start len = 0#len := by
  apply BitVec.eq_of_getLsbD_eq
  intro i hi
  rw [BitVec.getLsbD_extractLsb', bitsAt_getLsbD]
  have hout : start + i < lo ∨ n ≤ start + i - lo := by omega
  rcases hout with h | h <;> simp [h]

/-! ### Decoding the formats -/

/-- Settles O10: the opcode and mode bits choose the arm, which reads each field from its own place. -/
theorem decodeReadsEveryLayout : Obligations.DecodeReadsEveryLayout := by
  refine ⟨?addReg, ?andReg, ?addImm, ?andImm, ?notReg, ?ld, ?ldi, ?lea, ?st, ?sti, ?ldr, ?str, ?br,
    ?jmp, ?jsr, ?jsrr, ?trap, ?rti, ?res⟩
  case addReg | andReg =>
    intro d a x b
    simp [decode, decodeAdd, decodeAnd, regAt9, regAt6, regAt0, BitVec.extractLsb'_or, selector_toFin]
  case addImm | andImm =>
    intro d a v
    simp [decode, decodeAdd, decodeAnd, regAt9, regAt6, imm5Field, BitVec.extractLsb'_or,
      selector_toFin]
  case notReg =>
    intro d a x
    simp [decode, regAt9, regAt6, BitVec.extractLsb'_or, selector_toFin]
  case ld | ldi | lea | st | sti =>
    intro d v
    simp [decode, regAt9, pcOffset9Field, BitVec.extractLsb'_or, selector_toFin]
  case ldr | str =>
    intro d a v
    simp [decode, regAt9, regAt6, offset6Field, BitVec.extractLsb'_or, selector_toFin]
  case br =>
    intro c v
    simp [decode, decodeBr, nzpField, pcOffset9Field, BitVec.extractLsb'_or]
  case jmp =>
    intro x a y
    simp [decode, decodeJmp, regAt6, BitVec.extractLsb'_or, selector_toFin]
  case jsr =>
    intro v
    simp [decode, decodeJsr, pcOffset11Field, BitVec.extractLsb'_or]
  case jsrr =>
    intro x a y
    simp [decode, decodeJsr, regAt6, BitVec.extractLsb'_or, selector_toFin]
  case trap =>
    intro x v
    simp [decode, trapVectField, BitVec.extractLsb'_or]
  case rti | res =>
    intro x
    simp [decode]

/-- The vectors with a service, one by one (44_trap.md R111). -/
theorem isServiceVector_eq_false_iff (v : BitVec 8) :
    isServiceVector v = false ↔
      v ≠ 0x20#8 ∧ v ≠ 0x21#8 ∧ v ≠ 0x22#8 ∧ v ≠ 0x23#8 ∧ v ≠ 0x24#8 ∧ v ≠ 0x25#8 := by
  simp only [isServiceVector, Bool.and_eq_false_iff, decide_eq_false_iff_not]
  bv_omega

theorem trapInstr_of_not_service {v : BitVec 8} (h : isServiceVector v = false) :
    trapInstr v = .trap v := by
  obtain ⟨h20, h21, h22, h23, h24, h25⟩ := (isServiceVector_eq_false_iff v).mp h
  simp [trapInstr, *]

/-- Settles O7: an encoded instruction is its format with the ignored bits at their canonical values,
an alias the format of its core form. -/
theorem decodeEncodeRoundTrip : Obligations.DecodeEncodeRoundTrip := by
  obtain ⟨haddReg, handReg, haddImm, handImm, hnotReg, hld, hldi, hlea, hst, hsti, hldr, hstr, hbr,
    hjmp, hjsr, hjsrr, htrap, hrti, hres⟩ := decodeReadsEveryLayout
  have hjmp0 (a : Reg) : decode (encode (.jmp a)) = if a = 7 then .ret else .jmp a := by
    simpa [encode, bitsAt_zero] using hjmp 0 a 0
  have htrap0 (v : BitVec 8) : decode (encode (.trap v)) = trapInstr v := by
    simpa [encode, bitsAt_zero] using htrap 0 v
  intro i hwf
  cases i with
  | addReg d a b => simpa [encode, bitsAt_zero] using haddReg d a 0 b
  | andReg d a b => simpa [encode, bitsAt_zero] using handReg d a 0 b
  | addImm d a v => exact haddImm d a v
  | andImm d a v => exact handImm d a v
  | notReg d a => exact hnotReg d a 0b111111#6
  | ld d v => exact hld d v
  | ldi d v => exact hldi d v
  | lea d v => exact hlea d v
  | st d v => exact hst d v
  | sti d v => exact hsti d v
  | ldr d a v => exact hldr d a v
  | str d a v => exact hstr d a v
  | br c v => exact (hbr c v).trans (if_neg (by simpa [Instr.wellFormed] using hwf))
  | nop v => exact hbr 0#3 v
  | jmp a => exact (hjmp0 a).trans (if_neg (by simpa [Instr.wellFormed] using hwf))
  | ret => exact hjmp0 7
  | jsr v => exact hjsr v
  | jsrr a => simpa [encode, bitsAt_zero] using hjsrr 0 a 0
  | trap v =>
    exact (htrap0 v).trans (trapInstr_of_not_service (by simpa [Instr.wellFormed] using hwf))
  | getc => exact htrap0 0x20#8
  | out => exact htrap0 0x21#8
  | puts => exact htrap0 0x22#8
  | inChar => exact htrap0 0x23#8
  | putsp => exact htrap0 0x24#8
  | halt => exact htrap0 0x25#8
  | rti => simpa [encode, bitsAt_zero] using hrti 0
  | res => simpa [encode, bitsAt_zero] using hres 0

/-- Settles O11, by running the decoder on each word. -/
theorem specWordsDecode : Obligations.SpecWordsDecode := by
  unfold Obligations.SpecWordsDecode
  decide

end Sys2Proof
end

section
/-! An alias is its core form under another name (30_encoding.md R63). -/

namespace Sys2Proof

theorem encode_core (i : Instr) : encode i.core = encode i := by
  cases i <;> rfl

theorem ignoredBits_core (i : Instr) : i.core.ignoredBits = i.ignoredBits := by
  cases i <;> rfl

theorem Machine.exec_core (i : Instr) (s : Machine.State) :
    Machine.exec i.core s = Machine.exec i s := by
  cases i <;> rfl

/-- Settles O12: every arm of `encode` and `exec` for an alias is the arm for its core form. -/
theorem aliasesActAsTheirCoreInstruction : Obligations.AliasesActAsTheirCoreInstruction :=
  fun i => ⟨(encode_core i).symm, fun s => (Machine.exec_core i s).symm⟩

theorem decodeBr_core (w : Word) : (decodeBr w).core = .br (nzpField w) (pcOffset9Field w) := by
  unfold decodeBr
  split
  case isTrue hnzp => rw [hnzp, Instr.core]
  case isFalse => rfl

theorem decodeJmp_core (w : Word) : (decodeJmp w).core = .jmp (regAt6 w) := by
  unfold decodeJmp
  split
  case isTrue hbase => rw [hbase, Instr.core]
  case isFalse => rfl

theorem trapInstr_core (v : BitVec 8) : (trapInstr v).core = .trap v := by
  unfold trapInstr
  split_ifs <;> simp [Instr.core, *]

end Sys2Proof
end

section
/-! The word read back (30_encoding.md R58, R60): the bits that the decoder took its fields from are the
bits that the encoder puts them in, and the fixed bits single out one row of the table. -/

namespace Sys2Proof

/-! ### Fields put back -/

/-- A field put back where it was read from is the word with all its other bits cleared. -/
theorem bitsAt_extractLsb' (lo n : Nat) (w : Word) :
    bitsAt lo (w.extractLsb' lo n) = w &&& bitsAt lo (BitVec.allOnes n) := by
  apply word_eq_of_bits
  intro i hi
  by_cases h : i < lo
  · simp [h, bitsAt_getLsbD, -BitVec.getLsbD_eq_getElem]
  · have hplace : lo + (i - lo) = i := by omega
    simp [h, hi, hplace, bitsAt_getLsbD, Bool.and_comm, -BitVec.getLsbD_eq_getElem]

@[simp] theorem bitsAt_regAt9 (w : Word) : bitsAt 9 (selector (regAt9 w)) = w &&& 0x0E00#16 :=
  bitsAt_extractLsb' 9 3 w

@[simp] theorem bitsAt_regAt6 (w : Word) : bitsAt 6 (selector (regAt6 w)) = w &&& 0x01C0#16 :=
  bitsAt_extractLsb' 6 3 w

@[simp] theorem bitsAt_regAt0 (w : Word) : bitsAt 0 (selector (regAt0 w)) = w &&& 0x0007#16 :=
  bitsAt_extractLsb' 0 3 w

@[simp] theorem bitsAt_imm5Field (w : Word) : bitsAt 0 (imm5Field w) = w &&& 0x001F#16 :=
  bitsAt_extractLsb' 0 5 w

@[simp] theorem bitsAt_offset6Field (w : Word) : bitsAt 0 (offset6Field w) = w &&& 0x003F#16 :=
  bitsAt_extractLsb' 0 6 w

@[simp] theorem bitsAt_pcOffset9Field (w : Word) : bitsAt 0 (pcOffset9Field w) = w &&& 0x01FF#16 :=
  bitsAt_extractLsb' 0 9 w

@[simp] theorem bitsAt_pcOffset11Field (w : Word) : bitsAt 0 (pcOffset11Field w) = w &&& 0x07FF#16 :=
  bitsAt_extractLsb' 0 11 w

@[simp] theorem bitsAt_trapVectField (w : Word) : bitsAt 0 (trapVectField w) = w &&& 0x00FF#16 :=
  bitsAt_extractLsb' 0 8 w

/-- Fixed bits that the word has at their place are a part of the word. -/
theorem bitsAt_of_bits {n lo : Nat} {w : Word} {v : BitVec n}
    (h : ∀ i < n, w.getLsbD (lo + i) = v.getLsbD i) :
    bitsAt lo v = w &&& bitsAt lo (BitVec.allOnes n) := by
  have hv : w.extractLsb' lo n = v := by
    apply BitVec.eq_of_getLsbD_eq
    intro i hi
    simp [BitVec.getLsbD_extractLsb', hi, h i hi, -BitVec.getLsbD_eq_getElem]
  rw [← bitsAt_extractLsb', hv]

theorem bitsAt_opcode {w : Word} {op : BitVec 4} (h15 : w.getLsbD 15 = op.getLsbD 3)
    (h14 : w.getLsbD 14 = op.getLsbD 2) (h13 : w.getLsbD 13 = op.getLsbD 1)
    (h12 : w.getLsbD 12 = op.getLsbD 0) : bitsAt 12 op = w &&& 0xF000#16 := by
  have hmask : bitsAt 12 (BitVec.allOnes 4) = 0xF000#16 := by decide
  rw [← hmask]
  refine bitsAt_of_bits fun i hi => ?_
  interval_cases i <;> assumption

/-- The mode bit of ADD and AND at 5, that of JSR at 11 (R54). -/
theorem bitsAt_mode {w : Word} {lo : Nat} {b : BitVec 1} (h : w.getLsbD lo = b.getLsbD 0) :
    bitsAt lo b = w &&& bitsAt lo 1#1 := by
  refine bitsAt_of_bits fun i hi => ?_
  obtain rfl : i = 0 := by omega
  exact h

/-! ### What the decoder reads -/

theorem decodeBr_wellFormed (w : Word) : (decodeBr w).wellFormed = true := by
  unfold decodeBr
  split
  case isTrue => rfl
  case isFalse hnzp => simpa [Instr.wellFormed] using hnzp

theorem decodeAdd_wellFormed (w : Word) : (decodeAdd w).wellFormed = true := by
  unfold decodeAdd
  split <;> rfl

theorem decodeJsr_wellFormed (w : Word) : (decodeJsr w).wellFormed = true := by
  unfold decodeJsr
  split <;> rfl

theorem decodeAnd_wellFormed (w : Word) : (decodeAnd w).wellFormed = true := by
  unfold decodeAnd
  split <;> rfl

theorem decodeJmp_wellFormed (w : Word) : (decodeJmp w).wellFormed = true := by
  unfold decodeJmp
  split
  case isTrue => rfl
  case isFalse hbase => simpa [Instr.wellFormed] using hbase

theorem trapInstr_wellFormed (v : BitVec 8) : (trapInstr v).wellFormed = true := by
  unfold trapInstr
  split_ifs with h20 h21 h22 h23 h24 h25
  iterate 6 rfl
  simpa [Instr.wellFormed] using (isServiceVector_eq_false_iff v).mpr ⟨h20, h21, h22, h23, h24, h25⟩

/-- A word with an alias is read as the alias (R63). -/
theorem decode_wellFormed (w : Word) : (decode w).wellFormed = true := by
  unfold decode
  match w.getLsbD 15, w.getLsbD 14, w.getLsbD 13, w.getLsbD 12 with
  | false, false, false, false => exact decodeBr_wellFormed w
  | false, false, false, true => exact decodeAdd_wellFormed w
  | false, true, false, false => exact decodeJsr_wellFormed w
  | false, true, false, true => exact decodeAnd_wellFormed w
  | true, true, false, false => exact decodeJmp_wellFormed w
  | true, true, true, true => exact trapInstr_wellFormed (trapVectField w)
  | false, false, true, false | false, false, true, true | false, true, true, false
  | false, true, true, true | true, false, false, false | true, false, false, true
  | true, false, true, false | true, false, true, true | true, true, false, true
  | true, true, true, false => rfl

/-! ### Encoding what was decoded -/

/-- The word of `i` agrees with `w` outside the ignored bits of `i` (R58). -/
def KeepsMeaningfulBits (w : Word) (i : Instr) : Prop :=
  encode i &&& ~~~i.ignoredBits = w &&& ~~~i.ignoredBits

theorem keepsMeaningfulBits_core {w : Word} {i : Instr} :
    KeepsMeaningfulBits w i.core ↔ KeepsMeaningfulBits w i := by
  rw [KeepsMeaningfulBits, KeepsMeaningfulBits, encode_core, ignoredBits_core]

theorem keepsMeaningfulBits_iff {w m : Word} {i : Instr} (hm : i.ignoredBits = ~~~m) :
    KeepsMeaningfulBits w i ↔ encode i &&& m = w &&& m := by
  rw [KeepsMeaningfulBits, hm, BitVec.not_not]

/-- It is enough that the word of `i` is `w` with the ignored bits cleared. -/
theorem keepsMeaningfulBits_of_encode {w m : Word} {i : Instr} (hm : i.ignoredBits = ~~~m)
    (h : encode i = w &&& m) : KeepsMeaningfulBits w i := by
  rw [keepsMeaningfulBits_iff hm, h, BitVec.and_assoc, BitVec.and_self]

/-! The fields of `w` at their places, beside its own opcode and mode bits, give `w` back: the shapes
that several formats share, then the arms of the decoder. -/

theorem word_of_regMode {w op bit : Word} (hop : op = w &&& 0xF000#16) (hbit : bit = w &&& 0x0020#16) :
    op ||| bitsAt 9 (selector (regAt9 w)) ||| bitsAt 6 (selector (regAt6 w)) ||| bit |||
      bitsAt 0 (selector (regAt0 w)) = w &&& 0xFFE7#16 := by
  simp [hop, hbit, ← BitVec.and_or_distrib_left]

theorem word_of_immMode {w op bit : Word} (hop : op = w &&& 0xF000#16) (hbit : bit = w &&& 0x0020#16) :
    op ||| bitsAt 9 (selector (regAt9 w)) ||| bitsAt 6 (selector (regAt6 w)) ||| bit |||
      bitsAt 0 (imm5Field w) = w &&& 0xFFFF#16 := by
  simp [hop, hbit, ← BitVec.and_or_distrib_left]

theorem word_of_pcOffset9 {w op : Word} (hop : op = w &&& 0xF000#16) :
    op ||| bitsAt 9 (selector (regAt9 w)) ||| bitsAt 0 (pcOffset9Field w) = w &&& 0xFFFF#16 := by
  simp [hop, ← BitVec.and_or_distrib_left]

theorem word_of_offset6 {w op : Word} (hop : op = w &&& 0xF000#16) :
    op ||| bitsAt 9 (selector (regAt9 w)) ||| bitsAt 6 (selector (regAt6 w)) |||
      bitsAt 0 (offset6Field w) = w &&& 0xFFFF#16 := by
  simp [hop, ← BitVec.and_or_distrib_left]

theorem decodeBr_keeps {w : Word} (hop : bitsAt 12 0b0000#4 = w &&& 0xF000#16) :
    KeepsMeaningfulBits w (decodeBr w) := by
  rw [← keepsMeaningfulBits_core, decodeBr_core]
  exact keepsMeaningfulBits_of_encode rfl (word_of_pcOffset9 hop)

/-- Of two forms told apart by a mode bit (R54), each is read from a word with its own mode bit. -/
theorem modeBit_keeps {w : Word} {lo : Nat} {i j : Instr}
    (hi : bitsAt lo 0b1#1 = w &&& bitsAt lo 1#1 → KeepsMeaningfulBits w i)
    (hj : bitsAt lo 0b0#1 = w &&& bitsAt lo 1#1 → KeepsMeaningfulBits w j) :
    KeepsMeaningfulBits w (if w.getLsbD lo then i else j) := by
  split
  case isTrue hmode => exact hi (bitsAt_mode hmode)
  case isFalse hmode => exact hj (bitsAt_mode (Bool.eq_false_iff.mpr hmode))

theorem decodeAdd_keeps {w : Word} (hop : bitsAt 12 0b0001#4 = w &&& 0xF000#16) :
    KeepsMeaningfulBits w (decodeAdd w) :=
  modeBit_keeps (fun hbit => keepsMeaningfulBits_of_encode rfl (word_of_immMode hop hbit))
    (fun hbit => keepsMeaningfulBits_of_encode rfl (word_of_regMode hop hbit))

theorem decodeAnd_keeps {w : Word} (hop : bitsAt 12 0b0101#4 = w &&& 0xF000#16) :
    KeepsMeaningfulBits w (decodeAnd w) :=
  modeBit_keeps (fun hbit => keepsMeaningfulBits_of_encode rfl (word_of_immMode hop hbit))
    (fun hbit => keepsMeaningfulBits_of_encode rfl (word_of_regMode hop hbit))

theorem decodeJsr_keeps {w : Word} (hop : bitsAt 12 0b0100#4 = w &&& 0xF000#16) :
    KeepsMeaningfulBits w (decodeJsr w) := by
  refine modeBit_keeps (fun (hbit : bitsAt 11 0b1#1 = w &&& 0x0800#16) => ?_)
    (fun (hbit : bitsAt 11 0b0#1 = w &&& 0x0800#16) => ?_)
  · apply keepsMeaningfulBits_of_encode (m := 0xFFFF#16) rfl
    simp [encode, hop, hbit, ← BitVec.and_or_distrib_left]
  · apply keepsMeaningfulBits_of_encode (m := 0xF9C0#16) rfl
    simp [encode, hop, hbit, ← BitVec.and_or_distrib_left]

theorem decodeJmp_keeps {w : Word} (hop : bitsAt 12 0b1100#4 = w &&& 0xF000#16) :
    KeepsMeaningfulBits w (decodeJmp w) := by
  rw [← keepsMeaningfulBits_core, decodeJmp_core]
  apply keepsMeaningfulBits_of_encode (m := 0xF1C0#16) rfl
  simp [encode, hop, ← BitVec.and_or_distrib_left]

/-- The canonical ones of NOT stand in ignored bits. -/
theorem notReg_keeps {w : Word} (hop : bitsAt 12 0b1001#4 = w &&& 0xF000#16) :
    KeepsMeaningfulBits w (.notReg (regAt9 w) (regAt6 w)) := by
  have hones : bitsAt 0 0b111111#6 &&& 0xFFC0#16 = 0#16 := by decide
  have hfields : encode (.notReg (regAt9 w) (regAt6 w)) = w &&& 0xFFC0#16 ||| bitsAt 0 0b111111#6 := by
    simp [encode, hop, ← BitVec.and_or_distrib_left]
  rw [keepsMeaningfulBits_iff (m := 0xFFC0#16) rfl, hfields, BitVec.and_or_distrib_right, hones,
    BitVec.and_assoc, BitVec.and_self, BitVec.or_zero]

theorem trapInstr_keeps {w : Word} (hop : bitsAt 12 0b1111#4 = w &&& 0xF000#16) :
    KeepsMeaningfulBits w (trapInstr (trapVectField w)) := by
  rw [← keepsMeaningfulBits_core, trapInstr_core]
  apply keepsMeaningfulBits_of_encode (m := 0xF0FF#16) rfl
  simp [encode, hop, ← BitVec.and_or_distrib_left]

/-- Outside the ignored bits, the word of what was read is the word (R58). -/
theorem decode_keeps (w : Word) : KeepsMeaningfulBits w (decode w) := by
  unfold decode
  match h15 : w.getLsbD 15, h14 : w.getLsbD 14, h13 : w.getLsbD 13, h12 : w.getLsbD 12 with
  | false, false, false, false => exact decodeBr_keeps (bitsAt_opcode h15 h14 h13 h12)
  | false, false, false, true => exact decodeAdd_keeps (bitsAt_opcode h15 h14 h13 h12)
  | false, true, false, false => exact decodeJsr_keeps (bitsAt_opcode h15 h14 h13 h12)
  | false, true, false, true => exact decodeAnd_keeps (bitsAt_opcode h15 h14 h13 h12)
  | true, false, false, true => exact notReg_keeps (bitsAt_opcode h15 h14 h13 h12)
  | true, true, false, false => exact decodeJmp_keeps (bitsAt_opcode h15 h14 h13 h12)
  | true, true, true, true => exact trapInstr_keeps (bitsAt_opcode h15 h14 h13 h12)
  | false, false, true, false | false, false, true, true | true, false, true, false
  | true, false, true, true | true, true, true, false =>
    exact keepsMeaningfulBits_of_encode rfl (word_of_pcOffset9 (bitsAt_opcode h15 h14 h13 h12))
  | false, true, true, false | false, true, true, true =>
    exact keepsMeaningfulBits_of_encode rfl (word_of_offset6 (bitsAt_opcode h15 h14 h13 h12))
  | true, false, false, false | true, true, false, true =>
    exact keepsMeaningfulBits_of_encode rfl (bitsAt_opcode h15 h14 h13 h12)

/-- Settles O8, arm by arm of the decoder. -/
theorem encodeDecodeKeepsMeaningfulBits : Obligations.EncodeDecodeKeepsMeaningfulBits :=
  fun w => ⟨decode_wellFormed w, decode_keeps w⟩

/-! ### One row -/

open Laws in
/-- The encoder's row of every instruction (R57). -/
theorem encode_in_row : ∀ i : Instr, encode i &&& i.rowMask = i.rowMatch
  | .br nzp off => EncodesInRow.br nzp off
  | .addReg dr sr1 sr2 => EncodesInRow.addReg dr sr1 sr2
  | .addImm dr sr1 imm => EncodesInRow.addImm dr sr1 imm
  | .ld dr off => EncodesInRow.ld dr off
  | .st sr off => EncodesInRow.st sr off
  | .jsr off => EncodesInRow.jsr off
  | .jsrr base => EncodesInRow.jsrr base
  | .andReg dr sr1 sr2 => EncodesInRow.andReg dr sr1 sr2
  | .andImm dr sr1 imm => EncodesInRow.andImm dr sr1 imm
  | .ldr dr base off => EncodesInRow.ldr dr base off
  | .str sr base off => EncodesInRow.str sr base off
  | .rti => EncodesInRow.rti
  | .notReg dr sr => EncodesInRow.notReg dr sr
  | .ldi dr off => EncodesInRow.ldi dr off
  | .sti sr off => EncodesInRow.sti sr off
  | .jmp base => EncodesInRow.jmp base
  | .res => EncodesInRow.res
  | .lea dr off => EncodesInRow.lea dr off
  | .trap vect => EncodesInRow.trap vect
  | .ret => EncodesInRow.ret
  | .getc => EncodesInRow.getc
  | .out => EncodesInRow.out
  | .puts => EncodesInRow.puts
  | .inChar => EncodesInRow.inChar
  | .putsp => EncodesInRow.putsp
  | .halt => EncodesInRow.halt
  | .nop off => EncodesInRow.nop off

/-- No fixed bit of a row is ignored. -/
theorem rowMask_meaningful (i : Instr) : ~~~i.ignoredBits &&& i.rowMask = i.rowMask := by
  cases i <;> simp only [Instr.ignoredBits, Instr.rowMask] <;> rfl

/-- A word is in the row of every instruction whose meaningful bits it has. -/
theorem KeepsMeaningfulBits.in_row {w : Word} {i : Instr} (h : KeepsMeaningfulBits w i) :
    w &&& i.rowMask = i.rowMatch := by
  calc w &&& i.rowMask
      = (w &&& ~~~i.ignoredBits) &&& i.rowMask := by rw [BitVec.and_assoc, rowMask_meaningful]
    _ = (encode i &&& ~~~i.ignoredBits) &&& i.rowMask := by rw [h]
    _ = encode i &&& i.rowMask := by rw [BitVec.and_assoc, rowMask_meaningful]
    _ = i.rowMatch := encode_in_row i

/-- The nineteen rows of the decoder's table, each its mask and its match (R57). -/
def decoderRows : List (Word × Word) :=
  [(0xF000#16, 0x0000#16), (0xF020#16, 0x1000#16), (0xF020#16, 0x1020#16), (0xF000#16, 0x2000#16),
   (0xF000#16, 0x3000#16), (0xF800#16, 0x4800#16), (0xF800#16, 0x4000#16), (0xF020#16, 0x5000#16),
   (0xF020#16, 0x5020#16), (0xF000#16, 0x6000#16), (0xF000#16, 0x7000#16), (0xF000#16, 0x8000#16),
   (0xF000#16, 0x9000#16), (0xF000#16, 0xA000#16), (0xF000#16, 0xB000#16), (0xF000#16, 0xC000#16),
   (0xF000#16, 0xD000#16), (0xF000#16, 0xE000#16), (0xF000#16, 0xF000#16)]

theorem core_row_mem (i : Instr) : (i.core.rowMask, i.core.rowMatch) ∈ decoderRows := by
  cases i <;> simp [decoderRows, Instr.core, Instr.rowMask, Instr.rowMatch]

theorem decoderRows_nodup : decoderRows.Nodup := by decide

/-- Any two rows differ on a bit that both fix. -/
theorem decoderRows_apart : decoderRows.Pairwise fun r r' => r.2 &&& r'.1 ≠ r'.2 &&& r.1 := by decide

/-- No word is in two rows. -/
theorem decoderRows_unique {w : Word} {r r' : Word × Word} (hr : r ∈ decoderRows)
    (hr' : r' ∈ decoderRows) (h : w &&& r.1 = r.2) (h' : w &&& r'.1 = r'.2) : r = r' := by
  by_contra hne
  have hsymm : Std.Symm fun r r' : Word × Word => r.2 &&& r'.1 ≠ r'.2 &&& r.1 :=
    ⟨fun _ _ => Ne.symm⟩
  apply decoderRows_apart.forall hr hr' hne
  rw [← h, ← h', BitVec.and_assoc, BitVec.and_assoc, BitVec.and_comm r.1]

/-- Settles O9: the row of the decoded instruction fits the word, and no two rows fit one word. -/
theorem everyWordHasExactlyOneRow : Obligations.EveryWordHasExactlyOneRow := by
  intro w
  have hmem := core_row_mem (decode w)
  have hrow := (keepsMeaningfulBits_core.mpr (decode_keeps w)).in_row
  have hfits : ∀ r ∈ decoderRows, decide (w &&& r.1 = r.2) =
      decide (r = ((decode w).core.rowMask, (decode w).core.rowMatch)) := by
    intro r hr
    refine decide_eq_decide.mpr ⟨fun h => decoderRows_unique hr hmem h hrow, ?_⟩
    rintro rfl
    exact hrow
  refine (List.filter_congr hfits).trans ?_
  rw [List.filter_eq, List.count_eq_one_of_mem decoderRows_nodup hmem]
  rfl

end Sys2Proof
end

section
/-! The fetch and the dispatch (40_fetch_dispatch.md R70 to R77): what a step executes, a fetch at KBSR,
and a CORE that is stopped. -/

namespace Sys2Proof.Machine

/-! ### What a step executes -/

/-- A CORE that is running and not blocked executes what it has fetched. -/
theorem step_eq_exec_fetch {s : State} (hr : s.running = true) (hw : s.waiting = none) :
    step s = exec (decode s.fetch.1) s.fetch.2 := by
  rw [step, State.condition_running hr hw]

/-- Settles O13: the fetch is a `MemRead` at `pc` and the increment, and away from KBSR it reads the
cell. -/
theorem stepRunsDecodedInstruction : Obligations.StepRunsDecodedInstruction := by
  intro s hr hw
  refine ⟨step_eq_exec_fetch hr hw, ?_⟩
  rintro _ hpc rfl
  exact step_of_running hr hw hpc

/-! ### A fetch at KBSR -/

/-- The word a read of KBSR gives is the one the poll has left in the cell (20_memory.md R30). -/
theorem State.read_kbsr_memRead (s : State) :
    (s.memRead Config.kbsrAddr).2.mem.read Config.kbsrAddr = (s.memRead Config.kbsrAddr).1 := by
  simp [State.memRead]

/-- `readGives` looks at memory and `In` alone. -/
theorem readGives_congr {a v : Word} {s t u : State} (hmem : u.mem = t.mem)
    (hinput : u.input = t.input) : readGives a s u v ↔ readGives a s t v := by
  simp only [readGives, cellsSameBut, hmem, hinput]

/-- A fetch at KBSR with no byte pending reads as a BR that never branches. -/
theorem step_fetch_kbsr_none {s : State} (hr : s.running = true) (hw : s.waiting = none)
    (hpc : s.pc = Config.kbsrAddr) (hin : s.input = []) : step s = .next s.fetch.2 := by
  have hword : s.fetch.1 = 0x0000#16 := by
    rw [State.fetch, hpc, State.memRead_kbsr_none hin]
  have hnop : decode 0x0000#16 = .nop 0#9 := by decide
  rw [step_eq_exec_fetch hr hw, hword, hnop]
  exact congrArg Host.Outcome.next (State.branch_zero_mask _ _)

/-- A fetch at KBSR with a byte pending reads as an RTI. -/
theorem step_fetch_kbsr_some {s : State} (hr : s.running = true) (hw : s.waiting = none)
    (hpc : s.pc = Config.kbsrAddr) (hin : s.input ≠ []) :
    step s = .next (s.fetch.2.raiseFatal .rti) := by
  have hword : s.fetch.1 = 0x8000#16 := by
    rw [State.fetch, hpc, State.memRead_kbsr_word, if_neg hin]
  have hrti : decode 0x8000#16 = .rti := by decide
  rw [step_eq_exec_fetch hr hw, hword, hrti]
  rfl

/-- The fetch at KBSR is the read of the spec there, its word being left in the cell. -/
theorem State.fetch_kbsr_readGives {s : State} (hpc : s.pc = Config.kbsrAddr) :
    readGives Config.kbsrAddr s s.fetch.2 (s.fetch.2.mem.read Config.kbsrAddr) := by
  have hmem : s.fetch.2.mem = (s.memRead Config.kbsrAddr).2.mem := by rw [State.fetch, hpc]; rfl
  have hinput : s.fetch.2.input = (s.memRead Config.kbsrAddr).2.input := by
    rw [State.fetch, hpc]; rfl
  rw [readGives_congr hmem hinput, hmem, State.read_kbsr_memRead]
  exact State.memRead_readGives s Config.kbsrAddr

/-- Settles O14: the poll's word is that of the NOP or that of RTI, and neither changes more than the run
after the fetch. -/
theorem fetchAtKbsrPolls : Obligations.FetchAtKbsrPolls := by
  intro s hr hw hpc
  have hread := State.fetch_kbsr_readGives hpc
  have hnext : s.fetch.2.pc = 0xFE01#16 := by rw [State.fetch_pc, hpc]; decide
  by_cases hin : s.input = []
  · refine ⟨s.fetch.2, step_fetch_kbsr_none hr hw hpc hin, hread, hnext, ?_⟩
    simp [regsSameBut, hr, hw, hin]
  · refine ⟨s.fetch.2.raiseFatal .rti, step_fetch_kbsr_some hr hw hpc hin, ?_, hnext, ?_⟩
    · exact (readGives_congr rfl rfl).mpr hread
    · simp [regsSameBut, hw, hin]

/-! ### A stopped CORE -/

theorem step_of_stopped {s : State} (hr : s.running = false) : step s = .next s := by
  rw [step, State.condition_stopped hr]

/-- A run goes on from the state after its first event. -/
theorem runEvents_cons_of_happen {e : Event} {s t : State} (h : happen e s = .next t)
    (es : List Event) : runEvents (e :: es) s = runEvents es t := by
  rw [runEvents, h]

theorem runEvents_core_of_stopped {s : State} (hr : s.running = false) (n : Nat) :
    runEvents (List.replicate n .core) s = .next s := by
  induction n with
  | zero => rfl
  | succ n ih => exact (runEvents_cons_of_happen (e := .core) (step_of_stopped hr) _).trans ih

/-- Short of a reset, an event adds to a stopped CORE nothing but bytes of `In`. -/
theorem happen_of_stopped {e : Event} {s : State} (hr : s.running = false)
    (he : ∀ img, .reset img ≠ e) :
    ∃ bs, happen e s = .next { s with input := s.input ++ bs } := by
  cases e with
  | core => exact ⟨[], by rw [List.append_nil]; exact step_of_stopped hr⟩
  | supply b => exact ⟨[b], rfl⟩
  | eof policy =>
    cases policy with
    | hang => exact ⟨[], by rw [List.append_nil]; rfl⟩
    | zero => exact ⟨[0x00#8], rfl⟩
  | reset img => exact absurd rfl (he img)

/-- The run of a stopped CORE: the bytes that its events add to `In` add up. -/
theorem runEvents_of_stopped {es : List Event} {s : State} (hr : s.running = false)
    (hes : ∀ img, .reset img ∉ es) :
    ∃ bs, runEvents es s = .next { s with input := s.input ++ bs } := by
  induction es generalizing s with
  | nil => exact ⟨[], by rw [List.append_nil]; rfl⟩
  | cons e es ih =>
    obtain ⟨bs, hfirst⟩ := happen_of_stopped hr fun img => List.ne_of_not_mem_cons (hes img)
    obtain ⟨cs, hrest⟩ := ih (s := { s with input := s.input ++ bs }) hr
      fun img => List.not_mem_of_not_mem_cons (hes img)
    refine ⟨bs ++ cs, ?_⟩
    rw [runEvents_cons_of_happen hfirst, hrest, List.append_assoc]

/-- Settles O15, by induction on the steps and on the events. -/
theorem stoppedCoreHoldsItsState : Obligations.StoppedCoreHoldsItsState := by
  intro s hr
  refine ⟨runEvents_core_of_stopped hr, fun es hes => ?_, fun _ => rfl⟩
  obtain ⟨bs, hrun⟩ := runEvents_of_stopped hr hes
  exact ⟨bs, _, hrun, rfl, hr⟩

end Sys2Proof.Machine
end

section
/-! Sign extension and the condition register (40_fetch_dispatch.md R74 to R76). -/

namespace Sys2Proof.Machine

/-! ### Sign extension -/

/-- The extension fills the bits above the field with its top bit. -/
theorem sext_toNat {n : Nat} (h : n ≤ 16) (v : BitVec n) :
    (sext v).toNat = v.toNat + if v.msb then 2 ^ 16 - 2 ^ n else 0 := by
  rw [sext, BitVec.toNat_signExtend, BitVec.toNat_setWidth_of_le h]

/-- Settles O25: the extension keeps the signed value, and a word is given by its signed value. -/
theorem sextIsTwosComplement : Obligations.SextIsTwosComplement := by
  intro n v _ h16
  refine ⟨?_, fun w => ?_⟩
  · rw [sext_toNat h16, BitVec.msb_eq_getLsbD_last]
    split <;> rfl
  · rw [← sext_toInt h16 v, BitVec.toInt_inj]

/-! ### The flags -/

/-- The flag value of a word is that of its sign. -/
theorem flagsDescribe_flagOf (v : Word) : flagsDescribe v (flagOf v) := by
  have hsign : v.getLsbD 15 = decide (v.toInt < 0) := by
    rw [← BitVec.msb_eq_toInt, BitVec.msb_eq_getLsbD_last]
  have hzero : v = 0x0000#16 ↔ v.toInt = 0 := by rw [← BitVec.toInt_inj, BitVec.toInt_zero]
  unfold flagOf
  simp only [hsign, hzero, decide_eq_true_eq]
  refine ⟨fun hneg => if_pos hneg, fun hz => ?_, fun hpos => ?_⟩
  · rw [if_neg (by omega), if_pos hz]; rfl
  · rw [if_neg (by omega), if_neg (by omega)]; rfl

/-- Settles O26: COND becomes the flag value of the register, and `setcc` writes no other field. -/
theorem setccClassifiesBySign : Obligations.SetccClassifiesBySign :=
  fun s r => ⟨flagsDescribe_flagOf (s.reg r), fun _ _ => rfl, rfl, fun _ _ => rfl, ⟨rfl, rfl, rfl⟩,
    rfl, rfl⟩

/-- A result written with its flags leaves COND describing its register. -/
theorem State.flagsDescribe_writeResult (s : State) (dr : Reg) (v : Word) :
    flagsDescribe ((s.writeResult dr v).reg dr) (s.writeResult dr v).cond :=
  flagsDescribe_flagOf _

/-! ### Which instructions write COND -/

theorem State.branch_cond (s : State) (nzp : BitVec 3) (off : BitVec 9) :
    (s.branch nzp off).cond = s.cond := by
  unfold State.branch
  split <;> rfl

/-- No service writes COND, nor does a TRAP without one. -/
theorem execTrap_cond {vect : BitVec 8} {s t : State} (h : execTrap vect s = .next t) :
    t.cond = s.cond := by
  unfold execTrap at h
  split_ifs at h
  · cases h; exact State.awaitByte_cond s.link .getc
  · cases h; rfl
  · exact (printFrom_readsAndPuts h).cond
  · cases h; exact State.awaitByte_cond (s.link.putBytes promptBytes) .inChar
  · exact (printFrom_readsAndPuts h).cond
  · cases h; rfl
  · cases h; rfl

/-- Beside the seven, COND is left alone; the services are TRAPs by another name. -/
theorem exec_keeps_cond {i : Instr} (hi : i.setsCond = false) {s t : State}
    (h : exec i s = .next t) : t.cond = s.cond := by
  cases i with
  | br nzp off => cases h; exact State.branch_cond s nzp off
  | nop off => cases h; exact State.branch_cond s 0#3 off
  | jmp | ret | jsr | jsrr | st | str | rti | res => cases h; rfl
  | sti sr off => cases h; exact State.memRead_cond s (s.pcRel9 off)
  | trap vect => exact execTrap_cond h
  | getc => exact execTrap_cond (vect := 0x20#8) h
  | out => exact execTrap_cond (vect := 0x21#8) h
  | puts => exact execTrap_cond (vect := 0x22#8) h
  | inChar => exact execTrap_cond (vect := 0x23#8) h
  | putsp => exact execTrap_cond (vect := 0x24#8) h
  | halt => exact execTrap_cond (vect := 0x25#8) h
  | addReg | addImm | andReg | andImm | notReg | ld | ldi | ldr | lea => cases hi

/-- Each of the seven ends by writing its result and the flags of it. -/
theorem exec_ends_in_writeResult {i : Instr} (hi : i.setsCond = true) {s t : State}
    (h : exec i s = .next t) :
    ∃ (u : State) (dr : Reg) (v : Word), i.writtenRegs = [dr] ∧ t = u.writeResult dr v := by
  cases i with
  | addReg dr | addImm dr | andReg dr | andImm dr | notReg dr | ld dr | ldi dr | ldr dr | lea dr =>
    cases h; exact ⟨_, dr, _, rfl, rfl⟩
  | br | nop | jmp | ret | jsr | jsrr | st | sti | str | rti | res | trap => cases hi
  | getc | out | puts | inChar | putsp | halt => cases hi

/-- Settles O52: an instruction ends by writing a result with its flags, or leaves COND alone. -/
theorem condWrittenOnlyBySeven : Obligations.CondWrittenOnlyBySeven := by
  intro i s t h
  refine ⟨fun hi => exec_keeps_cond hi h, fun hi => ?_⟩
  obtain ⟨u, dr, v, hdr, rfl⟩ := exec_ends_in_writeResult hi h
  exact ⟨dr, hdr, State.flagsDescribe_writeResult u dr v⟩

end Sys2Proof.Machine
end

section
/-! The operate instructions ADD, AND and NOT (41_operate.md R80 to R85): each is one
`writeResult`, which sets the flags of the word it writes and changes nothing else. -/

namespace Sys2Proof.Machine

/-! ### What `writeResult` leaves unchanged, and the bits of a sign-extended field -/

/-- Beside the destination and COND, a written result changes nothing (R76). -/
theorem State.writeResult_frame (s : State) (dr : Reg) (v : Word) :
    regsSameBut [dr] s (s.writeResult dr v) ∧ (s.writeResult dr v).pc = s.pc ∧
      cellsSameBut [] s (s.writeResult dr v) ∧ runSame s (s.writeResult dr v) ∧
      channelsSame s (s.writeResult dr v) :=
  ⟨fun _ hr => State.reg_writeResult_other s (List.ne_of_not_mem_cons hr) v, rfl, fun _ _ => rfl,
    ⟨rfl, rfl, rfl⟩, rfl, rfl⟩

/-- From its top bit on, a sign-extended field repeats that bit (R74). -/
theorem getLsbD_sext {n k : Nat} (v : BitVec (n + 1)) (hk : k < 16) :
    (sext v).getLsbD k = v.getLsbD (min k n) := by
  rw [sext, BitVec.getLsbD_signExtend, decide_eq_true hk, Bool.true_and]
  split
  case isTrue h => rw [Nat.min_eq_left (Nat.le_of_lt_succ h)]
  case isFalse h =>
    rw [Nat.min_eq_right (by omega), BitVec.msb_eq_getLsbD_last, Nat.add_sub_cancel]

/-! ### ADD -/

/-- Settles O27: the word written is the sum, which a word holds modulo 2^16. -/
theorem addRegisterWritesWrappedSum : Obligations.AddRegisterWritesWrappedSum := by
  intro dr sr1 sr2 s
  refine ⟨s.writeResult dr (s.reg sr1 + s.reg sr2), rfl, ?_, State.flagsDescribe_writeResult s dr _,
    State.writeResult_frame s dr _⟩
  rw [State.reg_writeResult_same, BitVec.toNat_add]

/-- Settles O28: narrowing to a word commutes with the sum of the signed views. -/
theorem addImmediateWritesWrappedSum : Obligations.AddImmediateWritesWrappedSum := by
  intro dr sr1 imm s
  refine ⟨s.writeResult dr (s.reg sr1 + sext imm), rfl, ?_, State.flagsDescribe_writeResult s dr _,
    State.writeResult_frame s dr _⟩
  rw [State.reg_writeResult_same, BitVec.ofInt_add, BitVec.ofInt_toInt, sext, BitVec.signExtend]

/-! ### AND and NOT, bit by bit -/

/-- Settles O29: the word written is the AND of the sources. -/
theorem andRegisterWritesConjunction : Obligations.AndRegisterWritesConjunction := by
  intro dr sr1 sr2 s
  refine ⟨s.writeResult dr (s.reg sr1 &&& s.reg sr2), rfl, fun k _ => ?_,
    State.flagsDescribe_writeResult s dr _, State.writeResult_frame s dr _⟩
  rw [State.reg_writeResult_same, BitVec.getLsbD_and]

/-- Settles O30: the second operand's bits are those of the sign-extended immediate. -/
theorem andImmediateWritesConjunction : Obligations.AndImmediateWritesConjunction := by
  intro dr sr1 imm s
  refine ⟨s.writeResult dr (s.reg sr1 &&& sext imm), rfl, fun k hk => ?_,
    State.flagsDescribe_writeResult s dr _, State.writeResult_frame s dr _⟩
  rw [State.reg_writeResult_same, BitVec.getLsbD_and, getLsbD_sext imm hk]

/-- Settles O31: the XOR with the word of ones complements each of the sixteen bits. -/
theorem notWritesComplement : Obligations.NotWritesComplement := by
  intro dr sr s
  refine ⟨s.writeResult dr (s.reg sr ^^^ BitVec.allOnes 16), rfl, fun k hk => ?_,
    State.flagsDescribe_writeResult s dr _, State.writeResult_frame s dr _⟩
  rw [State.reg_writeResult_same, BitVec.xor_allOnes, BitVec.getLsbD_not, decide_eq_true hk,
    Bool.true_and]

end Sys2Proof.Machine
end

section
/-! The data movement instructions (42_load_store.md R90 to R97): a load is one `loadInto` and a store one
`memWrite`, at an address that LDI and STI read from memory first. -/

namespace Sys2Proof.Machine

/-! ### Loads -/

/-- A load does to memory and `In` what the read does, and leaves the word read in its destination. -/
theorem State.loadInto_readGives (s : State) (dr : Reg) (a : Word) :
    readGives a s (s.loadInto dr a) ((s.loadInto dr a).reg dr) := by
  have hword : (s.loadInto dr a).reg dr = (s.memRead a).1 := State.reg_writeResult_same _ dr _
  rw [hword]
  exact (readGives_congr rfl rfl).mpr (State.memRead_readGives s a)

/-- Beside what its read does, a load changes its destination and COND alone. -/
theorem State.loadInto_frame (s : State) (dr : Reg) (a : Word) :
    regsSameBut [dr] s (s.loadInto dr a) ∧ (s.loadInto dr a).pc = s.pc ∧
      runSame s (s.loadInto dr a) ∧ (s.loadInto dr a).output = s.output := by
  refine ⟨fun r hr => State.reg_loadInto_other s (List.ne_of_not_mem_cons hr) a, ?_⟩
  simp [State.loadInto, runSame]

/-- Settles O32: LD is a load from `pc + sext_9`. -/
theorem ldLoadsPcRelative : Obligations.LdLoadsPcRelative := fun dr off s =>
  ⟨s.loadInto dr (s.pcRel9 off), rfl, State.loadInto_readGives s dr _,
    State.flagsDescribe_writeResult _ dr _, State.loadInto_frame s dr _⟩

/-- Settles O34: the address is computed in the state before the load, so DR may be the base. -/
theorem ldrLoadsBaseRelative : Obligations.LdrLoadsBaseRelative := fun dr base off s =>
  ⟨s.loadInto dr (s.baseRel6 base off), rfl, State.loadInto_readGives s dr _,
    State.flagsDescribe_writeResult _ dr _, State.loadInto_frame s dr _⟩

/-- Settles O33: LDI is a load that starts in the state the read of the pointer leaves, and that read
changes none of the fields of the frame. -/
theorem ldiLoadsThroughOnePointer : Obligations.LdiLoadsThroughOnePointer := by
  intro dr off s
  have hframe := State.loadInto_frame (s.indirect9 off).2 dr (s.indirect9 off).1
  refine ⟨_, rfl, ⟨_, _, State.memRead_readGives s (s.pcRel9 off), State.loadInto_readGives _ dr _⟩,
    State.flagsDescribe_writeResult _ dr _, ?_⟩
  simpa [State.indirect9, regsSameBut, runSame] using hframe

/-! ### LEA -/

/-- Wrapping to a word commutes with the sum of the signed views (R74). -/
theorem State.pcRel9_eq_ofInt (s : State) (off : BitVec 9) :
    s.pcRel9 off = BitVec.ofInt 16 (s.pc.toInt + off.toInt) := by
  rw [State.pcRel9, BitVec.ofInt_add, BitVec.ofInt_toInt, sext, BitVec.signExtend]

/-- Settles O35: LEA writes the address as a result and reads no memory. -/
theorem leaWritesAddressAndFlags : Obligations.LeaWritesAddressAndFlags := by
  intro dr off s
  refine ⟨s.writeResult dr (s.pcRel9 off), rfl, ?_, State.flagsDescribe_writeResult s dr _,
    State.writeResult_frame s dr _⟩
  rw [State.reg_writeResult_same, State.pcRel9_eq_ofInt]

/-! ### Stores -/

/-- A store writes one cell; every other cell and every other field stay as they were. -/
theorem State.memWrite_effect (s : State) (a v : Word) :
    (∀ c, c = a → (s.memWrite a v).mem.read c = v ∧ cellsSameBut [c] s (s.memWrite a v)) ∧
      regsSameBut [] s (s.memWrite a v) ∧ (s.memWrite a v).cond = s.cond ∧
      (s.memWrite a v).pc = s.pc ∧ runSame s (s.memWrite a v) ∧ channelsSame s (s.memWrite a v) := by
  obtain ⟨hread, hcells, hregs, hpc, hcond, hrun, hchannels⟩ := writeStoresExactlyOneCell s a v
  refine ⟨?_, hregs, hcond, hpc, hrun, hchannels⟩
  rintro _ rfl
  exact ⟨hread, hcells⟩

/-- Settles O36: ST is a store at `pc + sext_9`. -/
theorem stStoresPcRelative : Obligations.StStoresPcRelative := fun sr off s =>
  ⟨_, rfl, State.memWrite_effect s (s.pcRel9 off) (s.reg sr)⟩

/-- Settles O38: STR is a store at the base plus `sext_6`. -/
theorem strStoresBaseRelative : Obligations.StrStoresBaseRelative := fun sr base off s =>
  ⟨_, rfl, State.memWrite_effect s (s.baseRel6 base off) (s.reg sr)⟩

/-- Settles O37: STI is a store in the state the read of the pointer leaves, and that read changes
neither the register stored nor the fields of the frame. -/
theorem stiStoresThroughOnePointer : Obligations.StiStoresThroughOnePointer := by
  intro sr off s
  refine ⟨(s.indirect9 off).2.memWrite (s.indirect9 off).1 (s.reg sr), rfl,
    ⟨_, _, State.memRead_readGives s (s.pcRel9 off), Memory.read_write_same _ _ _,
      State.memWrite_cells _ _ _, rfl⟩, ?_⟩
  simp [State.indirect9, regsSameBut, runSame]

end Sys2Proof.Machine
end

section
/-! The control transfers (43_control.md R100 to R104). A transfer sets `pc` and, with a link, R7; the rest
of the state is its frame, said once for each of the two shapes. -/

namespace Sys2Proof.Machine

/-! ### The branch -/

/-- Two 3-bit words have a bit in common exactly when they meet at bit 2, 1 or 0. -/
theorem and_bne_zero_eq_bits : ∀ a b : BitVec 3, ((a &&& b) != 0#3) =
    ((a.getLsbD 2 && b.getLsbD 2) || (a.getLsbD 1 && b.getLsbD 1) || (a.getLsbD 0 && b.getLsbD 0)) := by
  decide

/-- The branch test pairs n with NEG, z with ZRO and p with POS (30_encoding.md R55). -/
theorem State.branchTaken_eq_bits (s : State) (nzp : BitVec 3) : s.branchTaken nzp =
    ((nzp.getLsbD 2 && s.cond.getLsbD 2) || (nzp.getLsbD 1 && s.cond.getLsbD 1) ||
      (nzp.getLsbD 0 && s.cond.getLsbD 0)) := by
  have hbit {k : Nat} (hk : k < 3) : (s.cond.extractLsb' 0 3).getLsbD k = s.cond.getLsbD k := by
    simp [hk]
  rw [State.branchTaken, and_bne_zero_eq_bits, hbit (by decide), hbit (by decide), hbit (by decide)]

/-- Settles O39: the branch test bit by bit, and a mask of zeros is never met. -/
theorem branchTestsMaskAgainstFlags : Obligations.BranchTestsMaskAgainstFlags := by
  refine ⟨fun nzp off s => ?_, fun off s => congrArg _ (State.branch_zero_mask s off)⟩
  rw [← State.branchTaken_eq_bits]
  rfl

/-! ### The jump without a link -/

/-- A jump changes `pc` alone (R101). -/
theorem State.setPc_frame (s : State) (v : Word) :
    regsSameBut [] s (s.setPc v) ∧ (s.setPc v).cond = s.cond ∧ cellsSameBut [] s (s.setPc v) ∧
      runSame s (s.setPc v) ∧ channelsSame s (s.setPc v) :=
  ⟨fun _ _ => rfl, rfl, fun _ _ => rfl, ⟨rfl, rfl, rfl⟩, rfl, rfl⟩

/-- Settles O40: JMP is a jump to its base, and RET the jump to R7. -/
theorem jumpGoesToBaseRegister : Obligations.JumpGoesToBaseRegister := by
  rintro i base s (rfl | ⟨rfl, rfl⟩)
  · exact ⟨s.jump base, rfl, rfl, State.setPc_frame s (s.reg base)⟩
  · exact ⟨s.jump 7, rfl, rfl, State.setPc_frame s (s.reg 7)⟩

/-! ### The transfers with a link -/

/-- Wrapping to a word commutes with the sum of the signed views, whatever the width of the offset
(40_fetch_dispatch.md R74). -/
theorem add_sext_eq_ofInt {n : Nat} (w : Word) (off : BitVec n) :
    w + sext off = BitVec.ofInt 16 (w.toInt + off.toInt) := by
  rw [BitVec.ofInt_add, BitVec.ofInt_toInt, sext, BitVec.signExtend]

/-- Beside `pc`, a linked transfer changes R7 alone (R103, R104). -/
theorem State.link_setPc_frame (s : State) (v : Word) :
    regsSameBut [7] s (s.link.setPc v) ∧ (s.link.setPc v).cond = s.cond ∧
      cellsSameBut [] s (s.link.setPc v) ∧ runSame s (s.link.setPc v) ∧
      channelsSame s (s.link.setPc v) :=
  ⟨fun _ hr => State.reg_link_other s (List.ne_of_not_mem_cons hr), rfl, fun _ _ => rfl,
    ⟨rfl, rfl, rfl⟩, rfl, rfl⟩

/-- Settles O41: the RET jumps to R7, which the JSR left holding the link. -/
theorem jsrLinksAndRetReturns : Obligations.JsrLinksAndRetReturns := by
  intro off s
  have hlink : (s.link.setPc (s.pcRel11 off)).reg 7 = s.pc := State.reg_link_seven s
  obtain ⟨hregs, hcond, hcells, hrun, hchannels⟩ := State.link_setPc_frame s (s.pcRel11 off)
  exact ⟨s.link.setPc (s.pcRel11 off), rfl, hlink, add_sext_eq_ofInt s.pc off, hregs, hcond, hcells,
    hrun, hchannels, _, rfl, hlink⟩

/-- Settles O42: the base is read after the link is written, so base 7 gives the link (decision D6). -/
theorem jsrrLinksThenReadsBase : Obligations.JsrrLinksThenReadsBase := by
  intro base s
  refine ⟨s.link.setPc (s.link.reg base), rfl, State.reg_link_seven s,
    fun hbase => State.reg_link_other s hbase, ?_, State.link_setPc_frame s (s.link.reg base)⟩
  rintro rfl
  exact State.reg_link_seven s

end Sys2Proof.Machine
end

section
/-! TRAP and the console services (44_trap.md R110 to R121): the link, the wait point of GETC and IN, and
the printing loop of PUTS and PUTSP. -/

namespace Sys2Proof.Machine

/-! ### A TRAP that emits and neither reads nor waits -/

/-- Bytes put out after the link change R7 and `Out` alone (R110). -/
theorem State.link_putBytes_frame (s : State) (bs : List Byte) :
    (s.link.putBytes bs).reg 7 = s.pc ∧ regsSameBut [7] s (s.link.putBytes bs) ∧
      (s.link.putBytes bs).pc = s.pc ∧ (s.link.putBytes bs).cond = s.cond ∧
      cellsSameBut [] s (s.link.putBytes bs) ∧ runSame s (s.link.putBytes bs) ∧
      (s.link.putBytes bs).input = s.input :=
  ⟨State.reg_link_seven s, fun _ hr => State.reg_link_other s (List.ne_of_not_mem_cons hr), rfl, rfl,
    fun _ _ => rfl, ⟨rfl, rfl, rfl⟩, rfl⟩

/-- The vectors below and above the six have no service (R111). -/
theorem isServiceVector_of_outside {v : BitVec 8} (h : v.toNat < 0x20 ∨ 0x25 < v.toNat) :
    isServiceVector v = false := by
  simp only [isServiceVector, Bool.and_eq_false_iff, decide_eq_false_iff_not]
  bv_omega

/-- A vector that has no service only links (R112). -/
theorem execTrap_of_not_service {v : BitVec 8} (h : isServiceVector v = false) (s : State) :
    execTrap v s = .next s.link := by
  obtain ⟨h20, h21, h22, h23, h24, h25⟩ := (isServiceVector_eq_false_iff v).mp h
  simp only [execTrap, h20, h21, h22, h23, h24, h25, if_false]

/-- Settles O43: what is left of TRAP without a service is the link. -/
theorem undefinedVectorOnlyLinks : Obligations.UndefinedVectorOnlyLinks := fun _ s hv =>
  ⟨s.link, execTrap_of_not_service (isServiceVector_of_outside hv) s, State.reg_link_seven s,
    fun _ hr => State.reg_link_other s (List.ne_of_not_mem_cons hr), rfl, rfl, rfl, ⟨rfl, rfl, rfl⟩,
    rfl, rfl⟩

/-- The low byte of a word is its value modulo 256. -/
theorem lowByte_eq_ofNat (w : Word) : lowByte w = BitVec.ofNat 8 (w.toNat % 256) := by
  apply BitVec.eq_of_toNat_eq
  simp [lowByte]

/-- Settles O45: OUT links before it reads R0, and the link does not write R0. -/
theorem outEmitsLowByte : Obligations.OutEmitsLowByte := by
  intro i s hi
  have hexec : exec i s = .next (s.link.putBytes [lowByte (s.link.reg 0)]) := by
    obtain rfl | rfl := hi <;> rfl
  rw [State.reg_link_other s (by decide), lowByte_eq_ofNat] at hexec
  exact ⟨_, hexec, rfl, State.link_putBytes_frame s _⟩

/-- Settles O50: HALT emits its text after the link and clears the run flag alone. -/
theorem haltPrintsAndStops : Obligations.HaltPrintsAndStops := by
  intro i s hi
  have hexec : exec i s = .next (s.link.putBytes haltBytes).stopRunning := by
    obtain rfl | rfl := hi <;> rfl
  have htext : haltBytes = "HALT\n".toList.map (fun c => BitVec.ofNat 8 c.toNat) := by decide
  obtain ⟨hlink, hregs, hpc, hcond, hcells, ⟨-, hfault, hwaiting⟩, hinput⟩ :=
    State.link_putBytes_frame s haltBytes
  exact ⟨_, hexec, rfl, hfault, hwaiting, congrArg (s.output ++ ·) htext, hlink, hregs, hpc, hcond,
    hcells, hinput⟩

/-! ### The wait point -/

/-- What a service emits of the byte it has waited for: IN echoes it, GETC does not (R113, R116). -/
def WaitPoint.echo (b : Byte) : WaitPoint → List Byte
  | .getc => []
  | .inChar => [b]

/-- At a wait point with a byte pending, the service takes it into R0, echoes it and ends (R119). -/
theorem State.awaitByte_takes {s : State} {b : Byte} {rest : List Byte} (h : s.input = b :: rest)
    (w : WaitPoint) :
    (s.awaitByte w).waiting = none ∧ (s.awaitByte w).input = rest ∧
      (s.awaitByte w).reg 0 = BitVec.ofNat 16 b.toNat ∧
      (s.awaitByte w).output = s.output ++ w.echo b := by
  rw [← zext8_eq_ofNat]
  cases w with
  | getc =>
    rw [State.awaitByte_getc h]
    exact ⟨rfl, rfl, State.reg_setReg_same _ 0 _, (List.append_nil s.output).symm⟩
  | inChar =>
    rw [State.awaitByte_inChar h]
    exact ⟨rfl, rfl, State.reg_setReg_same _ 0 _, rfl⟩

/-- A service that waits writes R7 and, of the other registers, at most R0; `pc`, COND, the cells, the run
flag and the cause stay as they were. -/
theorem State.awaitByte_after_link_frame (s : State) (bs : List Byte) (w : WaitPoint) :
    ((s.link.putBytes bs).awaitByte w).reg 7 = s.pc ∧
      ((s.link.putBytes bs).awaitByte w).pc = s.pc ∧
      ((s.link.putBytes bs).awaitByte w).cond = s.cond ∧
      cellsSameBut [] s ((s.link.putBytes bs).awaitByte w) ∧
      ((s.link.putBytes bs).awaitByte w).running = s.running ∧
      ((s.link.putBytes bs).awaitByte w).fault = s.fault ∧
      regsSameBut [7, 0] s ((s.link.putBytes bs).awaitByte w) := by
  obtain ⟨hlink, hregs, -⟩ := State.link_putBytes_frame s bs
  refine ⟨(State.awaitByte_reg _ w (by decide)).trans hlink, State.awaitByte_pc _ w,
    State.awaitByte_cond _ w, fun _ _ => by rw [State.awaitByte_mem]; rfl,
    State.awaitByte_running _ w, State.awaitByte_fault _ w, fun r hr => ?_⟩
  obtain ⟨h7, h0⟩ : r ≠ 7 ∧ r ≠ 0 := by simpa using hr
  rw [State.awaitByte_reg _ w h0]
  exact hregs r (by simpa using h7)

/-- A service that finds no byte is blocked, and has written R7 alone of the registers. -/
theorem State.awaitByte_after_link_none {s : State} (hin : s.input = []) (bs : List Byte)
    (w : WaitPoint) :
    ((s.link.putBytes bs).awaitByte w).waiting = some w ∧
      ((s.link.putBytes bs).awaitByte w).input = [] ∧
      regsSameBut [7] s ((s.link.putBytes bs).awaitByte w) ∧
      ((s.link.putBytes bs).awaitByte w).output = s.output ++ bs := by
  obtain ⟨-, hregs, -⟩ := State.link_putBytes_frame s bs
  rw [State.awaitByte_none (s := s.link.putBytes bs) hin]
  exact ⟨rfl, hin, hregs, rfl⟩

@[simp] theorem State.putBytes_nil (s : State) : s.putBytes [] = s := by simp [State.putBytes]

/-- GETC emits nothing, whether it takes a byte or is blocked. -/
theorem State.awaitByte_getc_output (s : State) : (s.awaitByte .getc).output = s.output := by
  rcases h : s.input with _ | ⟨b, rest⟩
  · rw [State.awaitByte_none h]
  · rw [State.awaitByte_getc h]; rfl

/-- Settles O44: GETC waits after the link, nothing being put out before. -/
theorem getcTakesOneByteOrWaits : Obligations.GetcTakesOneByteOrWaits := by
  intro i s hi
  have hexec : exec i s = .next ((s.link.putBytes []).awaitByte .getc) := by
    rw [State.putBytes_nil]
    obtain rfl | rfl := hi <;> rfl
  obtain ⟨hlink, hpc, hcond, hcells, hrun, hfault, hregs⟩ :=
    State.awaitByte_after_link_frame s [] .getc
  have hout : ((s.link.putBytes []).awaitByte .getc).output = s.output := by
    rw [State.awaitByte_getc_output, State.putBytes_nil]; rfl
  refine ⟨_, hexec, hlink, hpc, hcond, hout, hcells, hrun, hfault, fun hin => ?_,
    fun b rest hin => ?_⟩
  · obtain ⟨hwaiting, hinput, hregs, -⟩ := State.awaitByte_after_link_none hin [] .getc
    exact ⟨hwaiting, hinput, hregs⟩
  · obtain ⟨hwaiting, hinput, hbyte, -⟩ :=
      State.awaitByte_takes (s := s.link.putBytes []) hin .getc
    exact ⟨hwaiting, hinput, hbyte, hregs⟩

/-- Settles O49: IN waits after the link and the prompt. -/
theorem inPromptsThenTakesAndEchoes : Obligations.InPromptsThenTakesAndEchoes := by
  intro i s hi
  have hexec : exec i s = .next ((s.link.putBytes promptBytes).awaitByte .inChar) := by
    obtain rfl | rfl := hi <;> rfl
  have htext : promptBytes = "Enter a character: ".toList.map (fun c => BitVec.ofNat 8 c.toNat) := by
    decide
  obtain ⟨hlink, hpc, hcond, hcells, hrun, hfault, hregs⟩ :=
    State.awaitByte_after_link_frame s promptBytes .inChar
  rw [← htext]
  refine ⟨_, hexec, hlink, hpc, hcond, hcells, hrun, hfault,
    fun hin => State.awaitByte_after_link_none hin promptBytes .inChar, fun b rest hin => ?_⟩
  obtain ⟨hwaiting, hinput, hbyte, hout⟩ :=
    State.awaitByte_takes (s := s.link.putBytes promptBytes) hin .inChar
  exact ⟨hwaiting, hinput, hbyte, hregs, hout⟩

/-- A blocked CORE tries its wait point again (R119). -/
theorem step_of_blocked {s : State} {w : WaitPoint} (hr : s.running = true)
    (hw : s.waiting = some w) : step s = .next (s.awaitByte w) := by
  rw [step, State.condition_blocked hr hw]

/-- Settles O16: with no byte the wait point is the one already recorded, with one it takes the byte. -/
theorem blockedCoreWaitsAndResumes : Obligations.BlockedCoreWaitsAndResumes := by
  intro s w hr hw
  rw [step_of_blocked hr hw]
  refine ⟨fun hin => ?_, fun b rest hin => ?_⟩
  · rw [State.awaitByte_none hin, ← hw]
  · obtain ⟨hwaiting, hinput, hbyte, hout⟩ := State.awaitByte_takes hin w
    exact ⟨_, rfl, hbyte, fun _ h0 => State.awaitByte_reg s w (List.ne_of_not_mem_cons h0), hinput,
      hout, hwaiting, State.awaitByte_pc s w, State.awaitByte_cond s w,
      fun _ _ => by rw [State.awaitByte_mem], (State.awaitByte_running s w).trans hr,
      State.awaitByte_fault s w⟩

/-! ### The printing loop -/

/-- An answer of the loop does not depend on the cells it was allowed. -/
theorem printFrom_fuel_irrelevant {emit : Word → List Byte} {fuel fuel' : Nat} {a : Word}
    {s t u : State} (ht : printFrom emit fuel a s = .next t)
    (hu : printFrom emit fuel' a s = .next u) : t = u := by
  induction fuel generalizing fuel' a s with
  | zero => cases ht
  | succ k ih =>
    cases fuel' with
    | zero => cases hu
    | succ l =>
      by_cases hz : (s.memRead a).1 = 0x0000#16
      · rw [printFrom_end hz] at ht hu
        exact Host.Outcome.next.inj (ht.symm.trans hu)
      · rw [printFrom_more hz] at ht hu
        exact ih ht hu

/-- `MemRead` neither looks at the registers nor writes them. -/
theorem State.memRead_setReg (s : State) (r : Reg) (v a : Word) :
    (s.setReg r v).memRead a = ((s.memRead a).1, (s.memRead a).2.setReg r v) := by
  rcases State.memRead_cases s a with ⟨ha, h⟩ | ⟨rfl, hin, h⟩ | ⟨rfl, b, rest, hin, h⟩ <;> rw [h]
  · exact State.memRead_other _ ha
  · exact State.memRead_kbsr_none hin
  · exact State.memRead_kbsr_some hin

/-- The loop neither looks at the registers nor writes them. -/
theorem printFrom_setReg {emit : Word → List Byte} {fuel : Nat} {a : Word} {s t : State}
    (h : printFrom emit fuel a s = .next t) (r : Reg) (v : Word) :
    printFrom emit fuel a (s.setReg r v) = .next (t.setReg r v) := by
  induction fuel generalizing a s with
  | zero => cases h
  | succ k ih =>
    have hread := State.memRead_setReg s r v a
    by_cases hz : (s.memRead a).1 = 0x0000#16
    · rw [printFrom_end hz] at h
      cases h
      rw [printFrom_end (by rw [hread]; exact hz), hread]
    · rw [printFrom_more hz] at h
      rw [printFrom_more (by rw [hread]; exact hz), hread]
      exact ih h

theorem State.putBytes_putBytes (s : State) (bs cs : List Byte) :
    (s.putBytes bs).putBytes cs = s.putBytes (bs ++ cs) := by
  simp [State.putBytes]

/-- Over a string off KBSR the loop puts out the bytes of its words and does nothing else. -/
theorem printFrom_stringAt (emit : Word → List Byte) {ws : List Word} {a : Word} {s : State}
    (h : stringAt s.mem a ws) :
    printFrom emit (ws.length + 1) a s = .next (s.putBytes (ws.flatMap emit)) := by
  induction ws generalizing a s with
  | nil =>
    obtain ⟨ha, hzero⟩ := h
    have hread := State.memRead_other s ha
    rw [printFrom_end (by rw [hread]; exact hzero), hread, List.flatMap_nil, State.putBytes_nil]
  | cons w ws ih =>
    obtain ⟨ha, hword, hne, hrest⟩ := h
    have hread := State.memRead_other s ha
    rw [hword] at hread
    rw [List.length_cons, printFrom_more (by rw [hread]; exact hne), hread,
      ih (s := s.putBytes (emit w)) hrest, State.putBytes_putBytes, List.flatMap_cons]

/-! ### PUTS and PUTSP -/

/-- The instructions that run the loop, with the bytes each emits for a word (R115, R117). -/
inductive Prints : Instr → (Word → List Byte) → Prop
  | puts : Prints .puts putsBytes
  | trapPuts : Prints (.trap 0x22#8) putsBytes
  | putsp : Prints .putsp putspBytes
  | trapPutsp : Prints (.trap 0x24#8) putspBytes

/-- The four of them run the loop from the address in R0, after the link. -/
theorem Prints.exec_eq {i : Instr} {emit : Word → List Byte} (h : Prints i emit) (s : State) :
    exec i s = printFrom emit (printFuel s.link) (s.link.reg 0) s.link := by
  cases h <;> rfl

/-- They answer what the loop answers from the state before the link, with the link then written. -/
theorem Prints.exec_of_printFrom {i : Instr} {emit : Word → List Byte} (h : Prints i emit)
    {fuel : Nat} {s t : State} (ht : printFrom emit fuel (s.reg 0) s = .next t) :
    exec i s = .next (t.setReg 7 s.pc) := by
  have hlinked : printFrom emit fuel (s.reg 0) s.link = .next (t.setReg 7 s.pc) :=
    printFrom_setReg ht 7 s.pc
  obtain ⟨u, hu⟩ := printFrom_printFuel_ends emit (s.reg 0) s.link
  rw [h.exec_eq, State.reg_link_other s (by decide), hu, printFrom_fuel_irrelevant hlinked hu]

/-- Over a string off KBSR they put out the bytes of its words after the link. -/
theorem Prints.exec_of_stringAt {i : Instr} {emit : Word → List Byte} (h : Prints i emit)
    {s : State} {ws : List Word} (hws : stringAt s.mem (s.reg 0) ws) :
    exec i s = .next (s.link.putBytes (ws.flatMap emit)) :=
  h.exec_of_printFrom (printFrom_stringAt emit hws)

/-- Settles O46: the bytes of a word are its low byte. -/
theorem putsPrintsOneBytePerCell : Obligations.PutsPrintsOneBytePerCell := by
  intro i s ws hi hws
  have hprints : Prints i putsBytes := by
    obtain rfl | rfl := hi
    · exact .puts
    · exact .trapPuts
  have hbytes : ws.flatMap putsBytes = ws.map fun w => BitVec.ofNat 8 (w.toNat % 256) := by
    rw [List.map_eq_flatMap]
    exact congrArg ws.flatMap (funext fun w => congrArg (fun b => [b]) (lowByte_eq_ofNat w))
  rw [← hbytes]
  exact ⟨_, hprints.exec_of_stringAt hws, rfl, State.link_putBytes_frame s _⟩

/-- The high byte of a word is its value divided by 256. -/
theorem highByte_eq_ofNat (w : Word) : highByte w = BitVec.ofNat 8 (w.toNat / 256) := by
  apply BitVec.eq_of_toNat_eq
  simp [highByte, Nat.shiftRight_eq_div_pow]

theorem highByte_eq_zero_iff (w : Word) : highByte w = 0x00#8 ↔ w.toNat / 256 = 0 := by
  have hw : w.toNat < 65536 := w.isLt
  rw [highByte_eq_ofNat, ← BitVec.toNat_inj, BitVec.toNat_ofNat, BitVec.toNat_ofNat]
  omega

/-- The bytes of a word for PUTSP, by its value. -/
theorem putspBytes_eq_ofNat (w : Word) : putspBytes w = BitVec.ofNat 8 (w.toNat % 256) ::
    (if w.toNat / 256 = 0 then [] else [BitVec.ofNat 8 (w.toNat / 256)]) := by
  have hzero := highByte_eq_zero_iff w
  rw [putspBytes, ← lowByte_eq_ofNat, ← highByte_eq_ofNat]
  by_cases h : highByte w = 0x00#8
  · rw [if_pos h, if_pos (hzero.mp h)]
  · rw [if_neg h, if_neg (mt hzero.mpr h)]

/-- Settles O47: the bytes of a word are its low byte and, if not zero, its high byte. -/
theorem putspPrintsTwoBytesPerCell : Obligations.PutspPrintsTwoBytesPerCell := by
  intro i s ws hi hws
  have hprints : Prints i putspBytes := by
    obtain rfl | rfl := hi
    · exact .putsp
    · exact .trapPutsp
  rw [← funext putspBytes_eq_ofNat]
  exact ⟨_, hprints.exec_of_stringAt hws, rfl, State.link_putBytes_frame s _⟩

/-- A state is given by its other fields and the value of each register. -/
theorem State.eq_of_reg_eq {s t : State} (hreg : ∀ r, s.reg r = t.reg r)
    (h : { s with regs := t.regs } = t) : s = t := by
  have hregs : s.regs = t.regs := Vector.ext fun k hk => hreg ⟨k, hk⟩
  rw [← h, ← hregs]

/-- A register written over and put back is as if it had not been written, another write beside it. -/
theorem State.setReg_put_back (s : State) {r q : Reg} (h : r ≠ q) (v w : Word) :
    ((s.setReg r v).setReg q w).setReg r (s.reg r) = s.setReg q w := by
  refine State.eq_of_reg_eq (fun p => ?_) rfl
  by_cases hp : p = r
  · rw [hp, State.reg_setReg_same, State.reg_setReg_other s h]
  · simp only [State.reg_setReg, if_neg hp]

/-- Settles O48: the loop's first turn, and the loop from the second cell, which does not see that R0
has been moved on. -/
theorem printingReadsEachCellThroughMemRead : Obligations.PrintingReadsEachCellThroughMemRead := by
  intro i emit s hi
  have hprints : Prints i emit := by
    obtain ⟨rfl, rfl⟩ | ⟨rfl, rfl⟩ := hi
    · exact .puts
    · exact .putsp
  refine ⟨fun hz => hprints.exec_of_printFrom (printFrom_end (fuel := 0) hz), fun hz => ?_⟩
  obtain ⟨t, ht⟩ := printFrom_printFuel_ends emit (s.reg 0 + 1)
    ((s.memRead (s.reg 0)).2.putBytes (emit (s.memRead (s.reg 0)).1))
  obtain ⟨hregs, -⟩ := printFrom_frame ht
  have hmoved := printFrom_setReg ht 0 (s.reg 0 + 1)
  refine ⟨(t.setReg 0 (s.reg 0 + 1)).setReg 7 s.pc, ?_, ?_⟩
  · rw [hprints.exec_of_printFrom (by rw [State.reg_setReg_same]; exact hmoved)]
    simp
  · have h0 : s.reg 0 = t.reg 0 := by rw [State.reg_congr hregs]; simp
    rw [hprints.exec_of_printFrom ((printFrom_more hz).trans ht), h0,
      State.setReg_put_back t (by decide)]

end Sys2Proof.Machine
end

section
/-! The fatal opcodes RTI and RES (45_fatal_opcodes.md R130, R131): the abort and its frame. -/

namespace Sys2Proof.Machine

/-- An abort is never a good final state (R8, R140). -/
theorem State.raiseFatal_aborted (s : State) (c : FatalCause) : (s.raiseFatal c).aborted :=
  ⟨State.raiseFatal_running s c, Option.some_ne_none c⟩

/-- Beside the cause and the run flag, an abort changes nothing (R140, R142). -/
theorem State.raiseFatal_frame (s : State) (c : FatalCause) :
    regsSameBut [] s (s.raiseFatal c) ∧ (s.raiseFatal c).pc = s.pc ∧
      (s.raiseFatal c).cond = s.cond ∧ (s.raiseFatal c).mem = s.mem ∧
      (s.raiseFatal c).waiting = s.waiting ∧ channelsSame s (s.raiseFatal c) :=
  ⟨fun r _ => State.reg_raiseFatal s c r, rfl, rfl, rfl, rfl, rfl, rfl⟩

/-- Each fatal opcode is the abort with its own cause (R130, R131). -/
theorem exec_fatal {i : Instr} {c : FatalCause}
    (hi : (i = .rti ∧ c = .rti) ∨ (i = .res ∧ c = .res)) (s : State) :
    exec i s = .next (s.raiseFatal c) := by
  obtain ⟨rfl, rfl⟩ | ⟨rfl, rfl⟩ := hi
  · rfl
  · rfl

/-- Settles O51: both opcodes are the abort, which touches the cause and the run flag alone. -/
theorem fatalOpcodesAbortPrecisely : Obligations.FatalOpcodesAbortPrecisely := fun _ c s hi =>
  ⟨s.raiseFatal c, exec_fatal hi s, State.raiseFatal_aborted s c, State.raiseFatal_fault s c,
    State.raiseFatal_running s c, State.raiseFatal_frame s c⟩

end Sys2Proof.Machine
end

section
/-! Every instruction answers a next state (60_exceptions.md R141, 20_memory.md R43): all of them do so
at once but PUTS and PUTSP, whose loop ends (log 14). -/

namespace Sys2Proof.Machine

/-- A TRAP answers a next state for every vector: the loop of two services ends (log 14), the other
vectors have no loop. -/
theorem execTrap_answers_next (vect : BitVec 8) (s : State) : ∃ t, execTrap vect s = .next t := by
  unfold execTrap
  split_ifs
  · exact ⟨s.link.awaitByte .getc, rfl⟩
  · exact ⟨(s.link.putBytes [lowByte (s.link.reg 0)]).flush, rfl⟩
  · exact printFrom_printFuel_ends putsBytes (s.link.reg 0) s.link
  · exact ⟨(s.link.putBytes promptBytes).awaitByte .inChar, rfl⟩
  · exact printFrom_printFuel_ends putspBytes (s.link.reg 0) s.link
  · exact ⟨((s.link.putBytes haltBytes).flush).stopRunning, rfl⟩
  · exact ⟨s.link, rfl⟩

/-- Settles O6: the services are TRAPs by another name, and no other instruction can fail. -/
theorem everyInstructionAnswersNext : Obligations.EveryInstructionAnswersNext := by
  intro i s
  cases i with
  | trap vect => exact execTrap_answers_next vect s
  | getc => exact execTrap_answers_next 0x20#8 s
  | out => exact execTrap_answers_next 0x21#8 s
  | puts => exact execTrap_answers_next 0x22#8 s
  | inChar => exact execTrap_answers_next 0x23#8 s
  | putsp => exact execTrap_answers_next 0x24#8 s
  | halt => exact execTrap_answers_next 0x25#8 s
  | addReg | addImm | andReg | andImm | notReg => exact ⟨_, rfl⟩
  | ld | ldi | ldr | lea | st | sti | str => exact ⟨_, rfl⟩
  | br | nop | jmp | ret | jsr | jsrr => exact ⟨_, rfl⟩
  | rti => exact ⟨s.raiseFatal .rti, rfl⟩
  | res => exact ⟨s.raiseFatal .res, rfl⟩

end Sys2Proof.Machine
end

section
/-! Reset and hazards (70_reset_and_hazards.md): the values a reset leaves (R160), the load of an image
file (R164), and that no step stalls (R173). -/

namespace Sys2Proof.Machine

/-! ### Reset -/

/-- Every register is zero after a reset (10_state.md R25). -/
@[simp] theorem State.reg_resetWith (img : Memory) (input output : List Byte) (r : Reg) :
    (State.resetWith img input output).reg r = 0x0000#16 := by
  simp [State.reg, State.resetWith]

/-- Without an image, and with both channels empty, the host's reset is `State.reset` (logs 2, 3). -/
theorem State.hostReset_eq_reset {s : State} (hin : s.input = []) (hout : s.output = []) :
    s.hostReset [] = State.reset := by
  rw [State.hostReset, hin, hout, State.reset]

/-- Settles O1: both resets are `State.resetWith`, which gives each field its reset value. -/
theorem resetEstablishesEveryElement : Obligations.ResetEstablishesEveryElement :=
  ⟨fun s img => ⟨State.reg_resetWith img s.input s.output, rfl, rfl, rfl, rfl, rfl, fun _ => rfl, rfl,
      rfl⟩,
    ⟨State.reg_resetWith [] [] [], rfl, rfl, rfl, rfl, rfl, Memory.read_nil, rfl, rfl⟩,
    fun _ => State.hostReset_eq_reset⟩

/-! ### The load of an image file -/

/-- A word as an image file holds it: its high byte, then its low byte (R164). -/
def wordBytes (w : Word) : List Byte :=
  [BitVec.ofNat 8 (w.toNat / 256), BitVec.ofNat 8 (w.toNat % 256)]

/-- The two bytes of a word, the first of them as bits 15:8, are the word. -/
theorem highByte_append_lowByte (w : Word) :
    (BitVec.ofNat 8 (w.toNat / 256) ++ BitVec.ofNat 8 (w.toNat % 256) : Word) = w := by
  apply BitVec.eq_of_toNat_eq
  have hlow : w.toNat % 256 % 2 ^ 8 < 2 ^ 8 := Nat.mod_lt _ (by decide)
  rw [BitVec.toNat_append, BitVec.toNat_ofNat, BitVec.toNat_ofNat, ← Nat.shiftLeft_add_eq_or_of_lt hlow,
    Nat.shiftLeft_eq]
  omega

theorem wordsOfBytes_wordBytes_append (w : Word) (rest : List Byte) :
    wordsOfBytes (wordBytes w ++ rest) = w :: wordsOfBytes rest :=
  congrArg (· :: wordsOfBytes rest) (highByte_append_lowByte w)

theorem oddByteOf_wordBytes_append (w : Word) (rest : List Byte) :
    oddByteOf (wordBytes w ++ rest) = oddByteOf rest := rfl

/-- Fewer than two bytes hold no whole word. -/
theorem wordsOfBytes_short {bytes : List Byte} (h : bytes.length < 2) : wordsOfBytes bytes = [] := by
  match bytes, h with
  | [], _ => rfl
  | [_], _ => rfl

theorem oddByteOf_short {bytes : List Byte} (h : bytes.length < 2) : oddByteOf bytes = bytes.head? := by
  match bytes, h with
  | [], _ => rfl
  | [_], _ => rfl

/-- The whole words of a file are the words it was written from. -/
theorem wordsOfBytes_flatMap_append (ws : List Word) {odd : List Byte} (h : odd.length < 2) :
    wordsOfBytes (ws.flatMap wordBytes ++ odd) = ws := by
  induction ws with
  | nil => exact wordsOfBytes_short h
  | cons w ws ih =>
    rw [List.flatMap_cons, List.append_assoc, wordsOfBytes_wordBytes_append, ih]

/-- The byte left over is the one behind the words. -/
theorem oddByteOf_flatMap_append (ws : List Word) {odd : List Byte} (h : odd.length < 2) :
    oddByteOf (ws.flatMap wordBytes ++ odd) = odd.head? := by
  induction ws with
  | nil => exact oddByteOf_short h
  | cons w ws ih =>
    rw [List.flatMap_cons, List.append_assoc, oddByteOf_wordBytes_append, ih]

/-- A file of an origin, words and at most one odd byte is the image of these (R164). -/
theorem Memory.loadFile_eq_loadImage (m : Memory) (origin : Word) (ws : List Word) {odd : List Byte}
    (h : odd.length < 2) :
    m.loadFile ((origin :: ws).flatMap wordBytes ++ odd) =
      m.loadImage { origin := origin, words := ws, odd := odd.head? } := by
  rw [Memory.loadFile, imageOfBytes, wordsOfBytes_flatMap_append _ h, oddByteOf_flatMap_append _ h]

/-- A file of fewer than two bytes loads nothing (log 20). -/
theorem Memory.loadFile_short (m : Memory) {bytes : List Byte} (h : bytes.length < 2) :
    m.loadFile bytes = m := by
  rw [Memory.loadFile, imageOfBytes, wordsOfBytes_short h]

/-- An odd byte for which there is no room up to `0xFFFF` is not read. -/
theorem Memory.placeOdd_no_room (m : Memory) {img : Image} (h : img.room ≤ img.words.length) :
    m.placeOdd img = m := by
  unfold Memory.placeOdd
  split
  · rfl
  · exact if_neg (Nat.not_lt.mpr h)

/-- The odd byte's cell, counted without wrapping, is the only one `placeOdd` can change: where the
count passes `0xFFFF` there is no room for the byte. -/
theorem Memory.read_placeOdd (m : Memory) (img : Image) {b : Word}
    (h : img.odd = none ∨ b.toNat ≠ img.origin.toNat + img.words.length) :
    (m.placeOdd img).read b = m.read b := by
  by_cases hroom : img.words.length < img.room
  · refine Memory.read_placeOdd_other m img (h.imp_right fun hne e => hne ?_)
    unfold Image.room at hroom
    rw [e, BitVec.toNat_add, BitVec.toNat_ofNat]
    omega
  · rw [Memory.placeOdd_no_room m (Nat.not_lt.mp hroom)]

/-- The words beyond `0xFFFF` have no address, so that leaving them out changes no read (R164). -/
theorem Memory.read_loadImage (m : Memory) (img : Image) {b : Word}
    (h : img.odd = none ∨ b.toNat ≠ img.origin.toNat + img.words.length) :
    (m.loadImage img).read b =
      if img.origin.toNat ≤ b.toNat then (img.words[b.toNat - img.origin.toNat]?).getD (m.read b)
      else m.read b := by
  have horigin : img.origin.toNat < 65536 := img.origin.isLt
  have hb : b.toNat < 65536 := b.isLt
  have hfits : img.origin.toNat + (img.words.take img.room).length ≤ 65536 := by
    rw [List.length_take, Image.room]
    omega
  rw [Memory.loadImage, Memory.read_placeOdd _ img h, Memory.read_place _ _ _ hfits]
  split
  · have hroom : b.toNat - img.origin.toNat < img.room := by
      rw [Image.room]
      omega
    rw [List.getElem?_take_of_lt hroom]
  · rfl

/-- Settles O60: the file is the image of its origin and words, and its odd byte has a cell of its own. -/
theorem fileLoadsItsWholeWords : Obligations.FileLoadsItsWholeWords := by
  refine ⟨fun m origin ws odd a hodd ha => ?_, fun m bytes h => Memory.loadFile_short m h⟩
  have hload := Memory.loadFile_eq_loadImage m origin ws (Nat.lt_succ_of_le hodd)
  refine (congrArg (·.read a) hload).trans (Memory.read_loadImage m _ (ha.imp_left fun hnil => ?_))
  rw [hnil, List.head?_nil]

/-! ### The step -/

/-- Settles O5: a running CORE executes an instruction, a blocked one tries its wait point again (log 4)
and a stopped one holds its state (log 5). -/
theorem everyStepAnswersNext : Obligations.EveryStepAnswersNext := by
  intro s
  unfold step
  cases s.condition with
  | running => exact everyInstructionAnswersNext (decode s.fetch.1) s.fetch.2
  | blocked w => exact ⟨s.awaitByte w, rfl⟩
  | stopped => exact ⟨s, rfl⟩

end Sys2Proof.Machine
end
